-- ==== Sys2Proof/Word.lean ====
section
/-! DEFINITION. The word types of the block (00_scope.md R7, R11; 20_memory.md R40, R42). -/

namespace Sys2Proof

/-- A 32-bit word: a command word, an operand word, a sample word, a response word (R60, R40, R69).
Bit 0 is the least significant bit (R11). -/
abbrev Word := BitVec 32

/-- A binary32 value, held as its bit pattern: bit 31 the sign, bits 30:23 the exponent, bits 22:0 the
fraction (R7, R42). -/
abbrev F32 := BitVec 32

/-- One byte of the host's byte view of the sample memory (R42). -/
abbrev Byte := BitVec 8

end Sys2Proof
end

