-- ==== Sys2Proof/Syntax.lean ====
section
/-! DEFINITION. Command messages as they are sent, and the commands they stand for (30_encoding.md). -/

namespace Sys2Proof

/-- A command message: a command word and its operand words, delivered as one unit (R60). -/
structure Message where
  word : Word
  ops  : List Word
deriving DecidableEq, Repr

/-- The seven commands of R62, one constructor per row of opcode_table.json. The field types carry R61's and
R63's widths: the BAND field is 4 bits, the E field one bit, an operand word 32 bits. -/
inductive Instr where
  /-- `INIT fs` (R100): operand word `FSW`, a binary32 sample rate in Hz. -/
  | init (fs : F32)
  /-- `SETGAIN b, g` (R102): the BAND field and operand word `GW`, a binary32 gain in dB. -/
  | setgain (b : BitVec 4) (g : F32)
  /-- `GETGAIN b` (R103): the BAND field. -/
  | getgain (b : BitVec 4)
  /-- `SETEN e` (R104): the E field. -/
  | seten (e : Bool)
  /-- `GETEN` (R105). -/
  | geten
  /-- `RESET` (R106). -/
  | reset
  /-- `PROCESS base, nframes, nchan` (R120): operand words `BASE`, `NFRAMES`, `NCHAN`, each a u32. -/
  | process (base nframes nchan : Word)
deriving DecidableEq, Repr

/-- Why a message is `ILLEGAL` (R66, R67), in the order the decoder checks (R70). -/
inductive DecodeError where
  /-- `OP` is 0x0 or 0x8 .. 0xF (R67). -/
  | reservedOpcode
  /-- A reserved bit of an assigned opcode is set (R66). -/
  | reservedBit
  /-- The operand count differs from `NOPS(op)` (R67). -/
  | operandCount
deriving DecidableEq, Repr

/-- The two command ports (R10 `NPORTS`, R34, R148). -/
inductive PortId where
  | ctrl | audio
deriving DecidableEq, Repr

end Sys2Proof
end

