-- ==== Sys2Proof/WellFormed.lean ====
section
/-! DEFINITION. Which messages are well formed, said from the field layout of R61 and the operand counts of R63,
independently of the match and mask words the decoder uses. A term of `Instr` needs no check of its own: its
field types carry every bound. -/

namespace Sys2Proof

/-- The `OP` field, bits 31:28 (R61). -/
def Message.opField (m : Message) : Nat := m.word.toNat / 2 ^ 28

/-- The `BAND` field, bits 27:24 (R61). -/
def Message.bandField (m : Message) : Nat := m.word.toNat / 2 ^ 24 % 16

/-- The `RSV` field, bits 23:1 (R61). -/
def Message.rsvField (m : Message) : Nat := m.word.toNat / 2 % 2 ^ 23

/-- The `E` field, bit 0 (R61). -/
def Message.eField (m : Message) : Nat := m.word.toNat % 2

/-- `NOPS` by opcode number, for the assigned opcodes (R62, R63). -/
def nopsOfOp : Nat → Option Nat
  | 1 => some 1
  | 2 => some 1
  | 3 => some 0
  | 4 => some 0
  | 5 => some 0
  | 6 => some 0
  | 7 => some 3
  | _ => none

/-- The opcode is assigned (R67, first bullet). -/
def Message.opcodeAssigned (m : Message) : Bool := (nopsOfOp m.opField).isSome

/-- No reserved bit is set: `RSV` for every opcode, `BAND` but for `SETGAIN` and `GETGAIN`, `E` but for `SETEN`
(R66). -/
def Message.reservedClear (m : Message) : Bool :=
  m.rsvField == 0
    && (m.bandField == 0 || m.opField == 2 || m.opField == 3)
    && (m.eField == 0 || m.opField == 4)

/-- The operand count is `NOPS(op)` (R67, second bullet). -/
def Message.countFits (m : Message) : Bool := nopsOfOp m.opField == some m.ops.length

/-- The message is not `ILLEGAL` (R66, R67). -/
def Message.wellFormed (m : Message) : Bool := m.opcodeAssigned && m.reservedClear && m.countFits

end Sys2Proof
end

