-- ==== Sys2Proof/Decode.lean ====
section
/-! DEFINITION. The decoder of R70, the encoder of R61 to R63, and the cutting of a word stream into messages
(R71). Decoding is total: a message the table does not assign is rejected by the name of its reason. -/

namespace Sys2Proof

/-- The seven assigned opcodes (R62). -/
inductive Opcode where
  | init | setgain | getgain | seten | geten | reset | process
deriving DecidableEq, Repr

/-- One row of the opcode table: code, match word, mask word, operand count (R62). -/
structure OpRow where
  opcode  : Opcode
  code    : BitVec 4
  pattern : Word
  mask    : Word
  nops    : Nat
deriving DecidableEq, Repr

/-- The opcode table of R62. -/
def opcodeTable : List OpRow :=
  [ ⟨.init,    0x1#4, 0x10000000#32, 0xFFFFFFFF#32, 1⟩,
    ⟨.setgain, 0x2#4, 0x20000000#32, 0xF0FFFFFF#32, 1⟩,
    ⟨.getgain, 0x3#4, 0x30000000#32, 0xF0FFFFFF#32, 0⟩,
    ⟨.seten,   0x4#4, 0x40000000#32, 0xFFFFFFFE#32, 0⟩,
    ⟨.geten,   0x5#4, 0x50000000#32, 0xFFFFFFFF#32, 0⟩,
    ⟨.reset,   0x6#4, 0x60000000#32, 0xFFFFFFFF#32, 0⟩,
    ⟨.process, 0x7#4, 0x70000000#32, 0xFFFFFFFF#32, 3⟩ ]

/-- `op = w[31:28]` (R60). -/
def opOf (w : Word) : BitVec 4 := w.extractLsb' 28 4

/-- `b = w[27:24]` (R64). -/
def bandOf (w : Word) : BitVec 4 := w.extractLsb' 24 4

/-- `e = w[0]` (R65). -/
def enableOf (w : Word) : Bool := w.getLsbD 0

/-- The table row of an opcode number, none for a reserved one (R62, R67). -/
def rowOf (op : BitVec 4) : Option OpRow := opcodeTable.find? (fun r => r.code == op)

/-- A command of no operand word; any other count is `ILLEGAL` (R67). -/
def takeNone (i : Instr) : List Word → Except DecodeError Instr
  | [] => .ok i
  | _ :: _ => .error .operandCount

/-- A command of one operand word, taken whole (R63); any other count is `ILLEGAL` (R67). -/
def takeOne (f : Word → Instr) : List Word → Except DecodeError Instr
  | [] => .error .operandCount
  | [a] => .ok (f a)
  | _ :: _ :: _ => .error .operandCount

/-- A command of three operand words, taken whole (R63); any other count is `ILLEGAL` (R67). -/
def takeThree (f : Word → Word → Word → Instr) : List Word → Except DecodeError Instr
  | [] => .error .operandCount
  | [_] => .error .operandCount
  | [_, _] => .error .operandCount
  | [a, b, c] => .ok (f a b c)
  | _ :: _ :: _ :: _ :: _ => .error .operandCount

/-- The command of an opcode, once the opcode and the reserved bits are checked (R70). -/
def commandOf (op : Opcode) (w : Word) (ops : List Word) : Except DecodeError Instr :=
  match op with
  | .init => takeOne .init ops
  | .setgain => takeOne (.setgain (bandOf w)) ops
  | .getgain => takeNone (.getgain (bandOf w)) ops
  | .seten => takeNone (.seten (enableOf w)) ops
  | .geten => takeNone .geten ops
  | .reset => takeNone .reset ops
  | .process => takeThree .process ops

/-- `Decode(w, ops)` of R70: opcode, then reserved bits, then operand count. Operand values are never checked. -/
def decode (m : Message) : Except DecodeError Instr :=
  match rowOf (opOf m.word) with
  | none => .error .reservedOpcode
  | some r =>
    if m.word &&& r.mask = r.pattern then commandOf r.opcode m.word m.ops else .error .reservedBit

/-- The command word and operand words of a command (R61 to R63, R73). -/
def encode : Instr → Message
  | .init fs => ⟨0x10000000#32, [fs]⟩
  | .setgain b g => ⟨0x20000000#32 ||| (b.setWidth 32 <<< 24), [g]⟩
  | .getgain b => ⟨0x30000000#32 ||| (b.setWidth 32 <<< 24), []⟩
  | .seten e => ⟨0x40000000#32 ||| (BitVec.ofBool e).setWidth 32, []⟩
  | .geten => ⟨0x50000000#32, []⟩
  | .reset => ⟨0x60000000#32, []⟩
  | .process base nframes nchan => ⟨0x70000000#32, [base, nframes, nchan]⟩

/-- `NOPS(op)` of a command word; a reserved opcode has no count of its own (R71). -/
def nopsOf (w : Word) : Option Nat := (rowOf (opOf w)).map OpRow.nops

/-- Cuts the first message off a stream of words: `1 + NOPS(op)` words, known once the command word is read
(R71). None for an empty stream, for one that ends inside a message, and for a reserved opcode, whose length only
the transport's own delimiting gives (R71, R60). -/
def takeMessage : List Word → Option (Message × List Word)
  | [] => none
  | w :: rest =>
    match nopsOf w with
    | none => none
    | some n => if n ≤ rest.length then some (⟨w, rest.take n⟩, rest.drop n) else none

/-- The message whose bits are `w`, bit 0 the least significant bit of the command word and later words above it;
the bits from `nbits` up are 0. A reserved opcode gets no operand words. -/
def messageOfBits (nbits w : Nat) : Message :=
  let v := w % 2 ^ nbits
  let word := BitVec.ofNat 32 v
  let n := (nopsOf word).getD 0
  ⟨word, (List.range n).map (fun k => BitVec.ofNat 32 (v / 2 ^ (32 * (k + 1))))⟩

/-- The command this decoder reads from the bits `w` of a row of opcode_table.json. -/
def decodeTableWord (nbits w : Nat) : Option Instr :=
  match decode (messageOfBits nbits w) with
  | .ok i => some i
  | .error _ => none

end Sys2Proof
end

