-- ==== Sys2Proof/Config.lean ====
section
/-! DEFINITION. What the spec leaves open: the OPEN parameters (00_scope.md R9, R10) and the free values.
Every constant here is uninterpreted: nothing in Lean can evaluate one or prove a value of one, so a statement
holds for every choice. Where the spec bounds a value (a law of R9, the range of a draw, a NaN), the operation
that reads the raw constant keeps the bound (Machine/Float.lean, Machine/Operands.lean). -/

namespace Sys2Proof

/-- The binary32 operations whose NaN results the spec gives no bit pattern for (R8). -/
inductive FpOp where
  | add | sub | mul | div | sqrt
deriving DecidableEq, Repr

/-- Raw choice behind `sin32` (R9, D4: OPEN). DESIGN CHOICE, log 3; safe. -/
opaque Config.freeSin : F32 → F32

/-- Raw choice behind `cos32` (R9, D4: OPEN). DESIGN CHOICE, log 3; safe. -/
opaque Config.freeCos : F32 → F32

/-- Raw choice behind `pow32` (R9, D4: OPEN). DESIGN CHOICE, log 3; safe. -/
opaque Config.freePow : F32 → F32 → F32

/-- `ENABLE_RESET`, the enabled flag after power-on reset (R10, R25, D15: OPEN). DESIGN CHOICE, log 4; safe. -/
opaque Config.enableReset : Bool

/-- Raw bit pattern of a NaN result, by operation and operands (the spec gives none; a one-operand operation
passes +0.0 as the second). DESIGN CHOICE, log 2; safe. -/
opaque Config.freeNaN : FpOp → F32 → F32 → F32

/-- Raw value of the k-th NaN draw (R101, R124, D18, D19). DESIGN CHOICE, log 5; safe. -/
opaque Config.freeDraw : Nat → F32

/-- Raw value of the k-th free choice among the possible moves (R57, R148, U11). DESIGN CHOICE, log 6; safe. -/
opaque Config.freePick : Nat → Nat

/-- The sample rate a tune reads while `FS` is `none`, which R37(d) rules out of every run (R88).
DEDUCED, log 9; safe. -/
opaque Config.freeRate : F32

end Sys2Proof
end

