-- ==== Sys2Proof/Machine/State.lean ====
section
/-! DEFINITION. The state of the block and of what the spec keeps beside it (10_state.md, 20_memory.md R40 and R47,
60_exceptions.md R148, 70_reset_and_hazards.md R160 and R171), as plain data, and its value after power-on reset. -/

namespace Sys2Proof.Machine

/-- A band index, 0 .. 8 (`NBANDS` = 9, R6). -/
abbrev Band := Fin 9

/-- A channel the block has stages for (`NCH` = 2, R6). -/
inductive Channel where
  | ch0 | ch1
deriving DecidableEq, Repr

/-- One thing per channel. -/
structure Stereo (α : Type) where
  ch0 : α
  ch1 : α
deriving DecidableEq, Repr

/-- The five coefficients of one stage (R28); a0 is normalized to 1 and not stored. -/
structure Coef where
  b0 : F32
  b1 : F32
  b2 : F32
  a1 : F32
  a2 : F32
deriving DecidableEq, Repr

/-- The history of one stage: the two last inputs and the two last outputs (R29). -/
structure Hist where
  x1 : F32
  x2 : F32
  y1 : F32
  y2 : F32
deriving DecidableEq, Repr

/-- The pass-through set: b0 = 1.0, the rest +0.0 (R28, R81, D17). -/
def Coef.identity : Coef := ⟨0x3F800000#32, 0#32, 0#32, 0#32, 0#32⟩

/-- Cleared history, all +0.0 (R29, R81, R87, D17). -/
def Hist.zero : Hist := ⟨0#32, 0#32, 0#32, 0#32⟩

/-- The response status `ST` (R69, R142): 0 OK, 1 ILLEGAL. -/
inductive Status where
  | ok | illegal
deriving DecidableEq, Repr

/-- A response: the word `RESP` and the status bit `ST` (R69). -/
structure Response where
  word : Word
  st   : Status
deriving DecidableEq, Repr

/-- `PORT[p]` (R34): idle, or busy with the message being executed. -/
inductive PortState where
  | idle
  | busy (m : Message)
deriving DecidableEq, Repr

/-- A command port and the host agent on it (R34, R57, R148, R160, R171). DEDUCED, log 10. -/
structure Port where
  /-- R34. Between steps it is always `idle`. -/
  state       : PortState
  /-- The message sent and not yet performed (R148, R160). -/
  pending     : Option Message
  /-- The response recorded and not yet taken (R148, R160). -/
  undelivered : Option Response
  /-- The messages the agent has left to send, in order (R33, R171). -/
  toSend      : List Message
  /-- The responses the agent has taken, oldest first (R171). -/
  received    : List Response
deriving DecidableEq, Repr

/-- A region of the sample memory the host lends: word addresses `base .. base + size - 1` (R47). -/
structure Region where
  base : Nat
  size : Nat
deriving DecidableEq, Repr

/-- A step of the model (R148). -/
inductive Move where
  /-- Agent `p` sends its next message to its idle port. -/
  | send (p : PortId)
  /-- The block performs the pending message of port `p`. -/
  | perform (p : PortId)
  /-- Agent `p` takes its delivered response. -/
  | take (p : PortId)
deriving DecidableEq, Repr

/-- The sample memory in the host's byte view (R40, R42): word `a` is the bytes `4a .. 4a+3`, least significant
first. A list of cells with rising addresses; an address not listed reads as `Memory.unlisted`. -/
abbrev Memory := List Host.Cell

/-- What a byte nothing has written reads as. The spec leaves the contents to the host (R160). DESIGN CHOICE, log 7;
unsafe: a proof could lean on the 0. -/
def Memory.unlisted : Byte := 0#8

/-- The state: R20's tuple, the sample memory and the launch predicate beside it (R20, R47), and the model's own
fields `serving`, `draws`, `schedule`, `picks`. -/
structure State where
  /-- `GAIN[b]` (R24). -/
  gain     : Vector F32 9
  /-- `EN` (R25). -/
  en       : Bool
  /-- `INITD` (R26). -/
  initd    : Bool
  /-- `FS`, or the spec's marker `none` (R27). -/
  fs       : Option F32
  /-- `COEF[b][c]` (R28). -/
  coef     : Vector (Stereo Coef) 9
  /-- `HIST[b][c]` (R29). -/
  hist     : Vector (Stereo Hist) 9
  /-- `PORT[CTRL]` and its agent (R34, R148). -/
  ctrl     : Port
  /-- `PORT[AUDIO]` and its agent (R34, R148). -/
  audio    : Port
  /-- The sample memory (R40). -/
  mem      : Memory
  /-- The regions the host's launch lends: `BUF_OK` as data (R47, U3). DESIGN CHOICE, log 8. -/
  lent     : List Region
  /-- MODEL's own: the port whose message is being performed. DEDUCED, log 10. -/
  serving  : PortId
  /-- MODEL's own: how many NaN draws have been made (R101, R124). DESIGN CHOICE, log 5. -/
  draws    : Nat
  /-- MODEL's own: moves the launch fixes in advance (R57). DESIGN CHOICE, log 6. -/
  schedule : List Move
  /-- MODEL's own: how many moves have been made. DESIGN CHOICE, log 6. -/
  picks    : Nat
deriving DecidableEq, Repr

/-- Why the machine stops. -/
inductive Fault where
  /-- `F_BUFFER_RANGE` with the faulting message's operands (R47, R143): raised by `PROCESS` alone, when it is
  active, its region is not empty and the region fails `BUF_OK`; before any access and any change. Safe: the
  spec says the hardware's behaviour there is not given. -/
  | bufferRange (base nframes nchan : Word)
deriving DecidableEq, Repr

/-- Why an instruction has no meaning in the model. -/
inductive Refusal where
  /-- An arm of `exec` with no meaning yet, by its mnemonic. No meaning answers with it; safe. -/
  | notModelled (mnemonic : String)
deriving DecidableEq, Repr

/-- A port after power-on reset: idle, nothing pending or undelivered (R160), and an agent with nothing to send
until a launch gives it messages (DESIGN CHOICE, log 1, log 15). -/
def Port.reset : Port := ⟨.idle, none, none, [], []⟩

/-- The state right after power-on reset (R160): gains +0.0, `EN` the open `ENABLE_RESET`, uninitialized, `FS` none,
identity coefficients, cleared history, idle ports. The sample memory lists nothing (log 7), all of it is lent (the
default of R47, log 8), and the model's own fields start at the values of log 15. -/
def State.reset : State where
  gain     := Vector.replicate 9 0#32
  en       := Config.enableReset
  initd    := false
  fs       := none
  coef     := Vector.replicate 9 ⟨Coef.identity, Coef.identity⟩
  hist     := Vector.replicate 9 ⟨Hist.zero, Hist.zero⟩
  ctrl     := Port.reset
  audio    := Port.reset
  mem      := []
  lent     := [⟨0, 2 ^ 32⟩]
  serving  := .ctrl
  draws    := 0
  schedule := []
  picks    := 0

end Sys2Proof.Machine
end

