-- ==== Sys2Proof/Machine/Flags.lean ====
section
/-! DEFINITION. The block has no flags and no condition codes, and IEEE flags are no state (10_state.md R36,
00_scope.md R8). The only status is the bit `ST` of a response (30_encoding.md R69, 60_exceptions.md R142). -/

namespace Sys2Proof.Machine

/-- The status bit (R142): 0 OK, 1 ILLEGAL. -/
def Status.bit : Status → BitVec 1
  | .ok => 0#1
  | .illegal => 1#1

/-- The response of a command that was performed: its word, `ST = 0` (R69). -/
def Response.done (w : Word) : Response := ⟨w, .ok⟩

/-- The response of an `ILLEGAL` message: `RESP = 0`, `ST = 1` (R68). -/
def Response.illegal : Response := ⟨0#32, .illegal⟩

/-- `zext_32` of one bit (R11, R105). -/
def zext32 (e : Bool) : Word := (BitVec.ofBool e).setWidth 32

end Sys2Proof.Machine
end

