-- ==== Sys2Proof/Machine/Float.lean ====
section
/-! DEFINITION. Binary32 arithmetic (00_scope.md R7, R8, R9, R12): each operation rounded on its own, to nearest with
ties to even, with gradual underflow and no fusing. Every finite binary32 value is a whole number of units of
2^-149, so each operation is computed exactly on integers and rounded once by `roundMag`. IEEE flags are no state
(R8). PRESUMED where R8 only names IEEE 754 (signs of zeros, infinities): log 13. -/

namespace Sys2Proof.Machine

/-- The sign bit, bit 31 (R42). -/
def signOf (a : F32) : Bool := a.getLsbD 31

/-- Exponent and fraction together, bits 30:0: the order of magnitudes is the order of these numbers (R42). -/
def magOf (a : F32) : Nat := a.toNat % 2 ^ 31

/-- The magnitude bits of an infinity. -/
def infMag : Nat := 0x7F800000

def isNaN (a : F32) : Bool := decide (infMag < magOf a)
def isInf (a : F32) : Bool := decide (magOf a = infMag)
def isFinite (a : F32) : Bool := decide (magOf a < infMag)
def isZero (a : F32) : Bool := decide (magOf a = 0)

/-- A value from its sign and its magnitude bits. -/
def packF (neg : Bool) (mag : Nat) : F32 := BitVec.ofNat 32 (if neg then 2 ^ 31 + mag else mag)

/-- The magnitude that finite magnitude bits stand for, in units of 2^-149: subnormals count units, and each
exponent above 1 doubles them. -/
def unitsOf (mag : Nat) : Nat :=
  if mag < 2 ^ 23 then mag else (2 ^ 23 + mag % 2 ^ 23) * 2 ^ (mag / 2 ^ 23 - 1)

/-- A finite value in units of 2^-149. -/
def valOf (a : F32) : Int := if signOf a then -(unitsOf (magOf a) : Int) else (unitsOf (magOf a) : Int)

/-- Division to nearest, ties to even. -/
def divNearest (num den : Nat) : Nat :=
  let q := num / den
  let r := num % den
  if den < 2 * r ∨ (2 * r = den ∧ q % 2 = 1) then q + 1 else q

/-- The magnitude bits nearest to `num / den` units of 2^-149, ties to even, overflowing to infinity (R8). The quantum
is 2^j units, so that the significand has 24 bits, or fewer when the result is subnormal (gradual underflow). -/
def roundMag (num den : Nat) : Nat :=
  let j := (num / den).log2 - 23
  min (j * 2 ^ 23 + divNearest num (den * 2 ^ j)) infMag

/-- A NaN from a raw bit pattern: the raw pattern when it is a NaN, a quiet NaN otherwise, so that every NaN and only
a NaN can come out (log 2). -/
def asNaN (raw : F32) : F32 := if isNaN raw then raw else 0x7FC00000#32

/-- The NaN an operation answers; its bit pattern is free (log 2). -/
def nanResult (op : FpOp) (a b : F32) : F32 := asNaN (Config.freeNaN op a b)

/-- `fneg(a)` flips the sign bit (R12). -/
def fneg (a : F32) : F32 := a ^^^ 0x80000000#32

/-- The sum of two operands that are not NaN. Infinities of opposite signs have none; an exact zero sum is -0.0 only
when both operands are negative zeros (round to nearest). -/
def addCore (op : FpOp) (a b : F32) (x y : F32) : F32 :=
  if isInf a then (if isInf b && signOf a != signOf b then nanResult op x y else a)
  else if isInf b then b
  else
    let v := valOf a + valOf b
    if v = 0 then packF (isZero a && isZero b && signOf a && signOf b) 0
    else packF (decide (v < 0)) (roundMag v.natAbs 1)

/-- `fadd(a, b)` (R8, R12). -/
def fadd (a b : F32) : F32 :=
  if isNaN a || isNaN b then nanResult .add a b else addCore .add a b a b

/-- `fsub(a, b)` (R8, R12): the sum of a and the negation of b. -/
def fsub (a b : F32) : F32 :=
  if isNaN a || isNaN b then nanResult .sub a b else addCore .sub a (fneg b) a b

/-- `fmul(a, b)` (R8, R12). -/
def fmul (a b : F32) : F32 :=
  if isNaN a || isNaN b then nanResult .mul a b
  else
    let s := signOf a != signOf b
    if isInf a || isInf b then
      (if isZero a || isZero b then nanResult .mul a b else packF s infMag)
    else packF s (roundMag (unitsOf (magOf a) * unitsOf (magOf b)) (2 ^ 149))

/-- `fdiv(a, b)` (R8, R12). -/
def fdiv (a b : F32) : F32 :=
  if isNaN a || isNaN b then nanResult .div a b
  else
    let s := signOf a != signOf b
    if isInf a then (if isInf b then nanResult .div a b else packF s infMag)
    else if isInf b then packF s 0
    else if isZero b then (if isZero a then nanResult .div a b else packF s infMag)
    else packF s (roundMag (unitsOf (magOf a) * 2 ^ 149) (unitsOf (magOf b)))

/-- The bits `k-1 .. 0` of the integer square root of `n`, added to the bits already found in `root`. -/
def isqrtBits : Nat → Nat → Nat → Nat
  | 0, root, _ => root
  | k + 1, root, n =>
    let t := root + 2 ^ k
    isqrtBits k (if t * t ≤ n then t else root) n

/-- The integer square root. -/
def isqrt (n : Nat) : Nat := isqrtBits (n.log2 / 2 + 1) 0 n

/-- `fsqrt(a)`, correctly rounded (R9). The root of m units is the root of m * 2^149, in units; half a unit stands for
what the integer root leaves, which no tie of the rounding can meet. -/
def fsqrt (a : F32) : F32 :=
  if isNaN a then nanResult .sqrt a 0#32
  else if isZero a then a
  else if signOf a then nanResult .sqrt a 0#32
  else if isInf a then a
  else
    let n := unitsOf (magOf a) * 2 ^ 149
    let r := isqrt n
    packF false (roundMag (2 * r + (if r * r = n then 0 else 1)) 2)

/-- The order key of a value that is not a NaN: both zeros have key 0. -/
def orderKey (a : F32) : Int := if signOf a then -(magOf a : Int) else (magOf a : Int)

/-- `a < b`, an ordered comparison: false when either operand is a NaN (R12). -/
def flt (a b : F32) : Bool := !isNaN a && !isNaN b && decide (orderKey a < orderKey b)

/-- `a > b` (R12). -/
def fgt (a b : F32) : Bool := flt b a

/-- `a <= b` (R12). -/
def fle (a b : F32) : Bool := !isNaN a && !isNaN b && decide (orderKey a ≤ orderKey b)

/-- lo <= v <= hi; false for a NaN (R101, R124, R9). -/
def inRange (lo hi v : F32) : Bool := fle lo v && fle v hi

/-- `sin32(x)` (R9): open, but finite and in [-1, 1] for a finite nonzero x. -/
def sin32 (x : F32) : F32 :=
  if isFinite x && !isZero x && !inRange 0xBF800000#32 0x3F800000#32 (Config.freeSin x) then 0#32
  else Config.freeSin x

/-- `cos32(x)` (R9): open, but finite and in [-1, 1] for a finite nonzero x. -/
def cos32 (x : F32) : F32 :=
  if isFinite x && !isZero x && !inRange 0xBF800000#32 0x3F800000#32 (Config.freeCos x) then 0#32
  else Config.freeCos x

/-- `pow32(x, y)` (R9): open, but 1.0 for a zero y, and finite and positive for x = 10.0 and a finite y with
|y| <= 0.75. -/
def pow32 (x y : F32) : F32 :=
  if isZero y then 0x3F800000#32
  else if x = 0x41200000#32 ∧ inRange 0xBF400000#32 0x3F400000#32 y ∧
      !(isFinite (Config.freePow x y) && flt 0#32 (Config.freePow x y)) then 0x3F800000#32
  else Config.freePow x y

end Sys2Proof.Machine
end

