-- ==== Sys2Proof/Machine/Operands.lean ====
section
/-! DEFINITION. The operand forms: the band field, the channel count, the sample address, the declared region and
its admission, and what the host's driver encodes (20_memory.md R41, R47; 30_encoding.md R64, R75; 42 R122). All
arithmetic on counts and addresses is exact (R11). -/

namespace Sys2Proof.Machine

/-- The band a BAND field names; 9 .. 15 name none (R64). -/
def bandIndex (b : BitVec 4) : Option Band := if h : b.toNat < 9 then some ⟨b.toNat, h⟩ else none

/-- The BAND field a host's driver encodes for an integer band index: the index for 0 .. 8, 0xF otherwise (R75). -/
def hostBand (i : Int) : BitVec 4 := if 0 ≤ i ∧ i ≤ 8 then BitVec.ofInt 4 i else 0xF#4

/-- The count word a host's driver encodes: a count below 0 has no encoding and 0 stands in its place (R63, D8). None
where the count does not fit a u32: the driver has no word for it. -/
def hostCount (i : Int) : Option Word :=
  if i < 0 then some 0#32 else if i < 2 ^ 32 then some (BitVec.ofInt 32 i) else none

/-- The number of a channel. -/
def Channel.index : Channel → Nat
  | .ch0 => 0
  | .ch1 => 1

/-- Channels 0 .. min(nchan, 2) - 1, ascending (R122). -/
def processedChannels (nchan : Nat) : List Channel := [Channel.ch0, Channel.ch1].take nchan

/-- `SampleAddr(base, f, c, channelCount) = base + f*channelCount + c`, an exact integer (R41). -/
def sampleAddr (base f : Nat) (c : Channel) (nchan : Nat) : Nat := base + f * nchan + c.index

/-- The region holds the words `base .. base + n - 1`. -/
def Region.holds (r : Region) (base n : Nat) : Bool := decide (r.base ≤ base ∧ base + n ≤ r.base + r.size)

/-- `BUF_OK(base, nwords)` (R47): the words lie inside the sample memory and inside one region the launch lends. -/
def State.bufOk (s : State) (base n : Nat) : Bool :=
  decide (base + n ≤ 2 ^ 32) && s.lent.any (fun r => r.holds base n)

end Sys2Proof.Machine
end

