-- ==== Sys2Proof/Machine/Tables.lean ====
section
/-! DEFINITION. The read-only tables and literals (00_scope.md R6, R9, R12; 10_state.md R21 to R23). -/

namespace Sys2Proof.Machine

/-- The literals of R12, and `TWO_PI32`. -/
def f1 : F32 := 0x3F800000#32
def f2 : F32 := 0x40000000#32
def fNeg2 : F32 := 0xC0000000#32
def f10 : F32 := 0x41200000#32
def f40 : F32 := 0x42200000#32
def f30 : F32 := 0x41F00000#32
def fNeg30 : F32 := 0xC1F00000#32
def fNeg1 : F32 := 0xBF800000#32
def f0 : F32 := 0x00000000#32
def f0707 : F32 := 0x3F34FDF4#32
/-- `PI32`, the binary32 value nearest to pi (R9). -/
def pi32 : F32 := 0x40490FDB#32
/-- `TWO_PI32 = fmul(2.0, PI32)` (R12). -/
def twoPi32 : F32 := 0x40C90FDB#32

/-- The nine bands in ascending order (R123). -/
def allBands : List Band := [0, 1, 2, 3, 4, 5, 6, 7, 8]

/-- `FREQ[b]` in Hz, as binary32 (R21). -/
def freq : Band → F32
  | 0 => 0x41F00000#32
  | 1 => 0x43160000#32
  | 2 => 0x43AF0000#32
  | 3 => 0x44160000#32
  | 4 => 0x447A0000#32
  | 5 => 0x455AC000#32
  | 6 => 0x45DAC000#32
  | 7 => 0x462BE000#32
  | 8 => 0x467A0000#32

/-- `FREQ[b]` in Hz, the source's integers (R6, R21). -/
def freqHz : Band → Nat
  | 0 => 30
  | 1 => 150
  | 2 => 350
  | 3 => 600
  | 4 => 1000
  | 5 => 3500
  | 6 => 7000
  | 7 => 11000
  | 8 => 16000

/-- The filter topologies (R22). -/
inductive Topology where
  | lowShelf | peaking | highShelf
deriving DecidableEq, Repr

/-- `TOPO[b]` (R22): band 0 a low shelf, band 8 a high shelf, the rest peaking. -/
def topo (b : Band) : Topology := if b = 0 then .lowShelf else if b = 8 then .highShelf else .peaking

/-- `QF[b]` (R23): 0.707 for the shelves, 1.0 for peaking. -/
def qf (b : Band) : F32 :=
  match topo b with
  | .lowShelf => f0707
  | .highShelf => f0707
  | .peaking => f1

end Sys2Proof.Machine
end

