-- ==== Sys2Proof/Machine/Ops.lean ====
section
/-! DEFINITION. The named operations over memory, registers and ports that every command is written in, and power-on
reset. There is no exception entry and no return to model: the hardware raises none (60_exceptions.md R140, R146).
What stands in their place is the response of an `ILLEGAL` message and the model fault (R143). -/

namespace Sys2Proof.Machine

/-! ### The sample memory -/

/-- One byte of the host's byte view (R42). -/
def Memory.read : Memory → Nat → Byte
  | [], _ => Memory.unlisted
  | (k, v) :: rest, a => if k = a then v else Memory.read rest a

/-- Writes one byte and keeps the canonical form: rising addresses, no entry equal to what an unlisted byte reads
as. -/
def Memory.write : Memory → Nat → Byte → Memory
  | [], a, v => if v = Memory.unlisted then [] else [(a, v)]
  | (k, w) :: rest, a, v =>
    if a < k then (if v = Memory.unlisted then (k, w) :: rest else (a, v) :: (k, w) :: rest)
    else if a = k then (if v = Memory.unlisted then rest else (a, v) :: rest)
    else (k, w) :: Memory.write rest a v

/-- The canonical form: addresses strictly rising and no entry equal to what an unlisted address reads as. -/
def Memory.wf : Memory → Bool
  | [] => true
  | [(_, v)] => v != Memory.unlisted
  | (k, v) :: (k', v') :: rest => v != Memory.unlisted && decide (k < k') && Memory.wf ((k', v') :: rest)

/-- Every listed byte belongs to one of the 2^32 words (R40, R42). -/
def Memory.inSpace (m : Memory) : Bool := m.all (fun cell => decide (cell.1 < 2 ^ 34))

/-- The word at word address `a`: bytes 4a .. 4a+3, least significant first (R42). -/
def Memory.readWord (m : Memory) (a : Nat) : Word :=
  m.read (4 * a + 3) ++ m.read (4 * a + 2) ++ m.read (4 * a + 1) ++ m.read (4 * a)

/-- Replaces the word at word address `a` (R42, R44). -/
def Memory.writeWord (m : Memory) (a : Nat) (v : Word) : Memory :=
  (((m.write (4 * a) (v.extractLsb' 0 8)).write (4 * a + 1) (v.extractLsb' 8 8)).write (4 * a + 2)
    (v.extractLsb' 16 8)).write (4 * a + 3) (v.extractLsb' 24 8)

/-- `MemRead(addr, 1)` (R13, R44). -/
def State.memRead (s : State) (a : Nat) : Word := s.mem.readWord a

/-- `MemWrite(addr, 1, v)` (R13, R44). -/
def State.memWrite (s : State) (a : Nat) (v : Word) : State := { s with mem := s.mem.writeWord a v }

/-! ### Registers -/

def Stereo.get {α : Type} (p : Stereo α) : Channel → α
  | .ch0 => p.ch0
  | .ch1 => p.ch1

def Stereo.set {α : Type} (p : Stereo α) : Channel → α → Stereo α
  | .ch0, v => { p with ch0 := v }
  | .ch1, v => { p with ch1 := v }

/-- `GAIN[b]` (R24). -/
def State.gainAt (s : State) (b : Band) : F32 := s.gain[b.val]

/-- `GAIN[b] <- v` (R24). -/
def State.setGain (s : State) (b : Band) (v : F32) : State := { s with gain := s.gain.set b.val v }

/-- `COEF[b][c]` (R28). -/
def State.coefAt (s : State) (b : Band) (c : Channel) : Coef := (s.coef[b.val]).get c

/-- `COEF[b][0] <- k` and `COEF[b][1] <- k`: always both, with the same set (R28, R88). -/
def State.setCoef (s : State) (b : Band) (k : Coef) : State := { s with coef := s.coef.set b.val ⟨k, k⟩ }

/-- `HIST[b][c]` (R29). -/
def State.histAt (s : State) (b : Band) (c : Channel) : Hist := (s.hist[b.val]).get c

/-- `HIST[b][c] <- h` (R29). -/
def State.setHist (s : State) (b : Band) (c : Channel) (h : Hist) : State :=
  { s with hist := s.hist.set b.val ((s.hist[b.val]).set c h) }

/-- `FS` as the tune operation reads it. `FS` must not be `none` there (R88), and in no run is it (R37(d)): a free
value stands for it (log 9). -/
def State.rate (s : State) : F32 := s.fs.getD Config.freeRate

/-! ### Draws -/

/-- `draw v in { v : binary32 | lo <= v <= hi }` (R101, R124; both ranges hold +0.0): the next free value, kept in the
range. -/
def State.draw (s : State) (lo hi : F32) : F32 × State :=
  (if inRange lo hi (Config.freeDraw s.draws) then Config.freeDraw s.draws else f0, { s with draws := s.draws + 1 })

/-! ### Ports and responses -/

def State.port (s : State) : PortId → Port
  | .ctrl => s.ctrl
  | .audio => s.audio

def State.setPort (s : State) : PortId → Port → State
  | .ctrl, q => { s with ctrl := q }
  | .audio, q => { s with audio := q }

/-- `respond(word, st)` (R13): records the response on the port being served and returns the port to `idle`
(R148). -/
def State.respond (s : State) (r : Response) : State :=
  s.setPort s.serving { s.port s.serving with state := .idle, undelivered := some r }

/-- The block takes the pending message of port `p` to perform it: the port is busy with it (R34, R148). -/
def State.accept (s : State) (p : PortId) (m : Message) : State :=
  { s.setPort p { s.port p with state := .busy m, pending := none } with serving := p }

/-! ### Power-on reset -/

/-- `STAGE_CONSTRUCT(b, c)` for both channels of band `b` (R81). -/
def State.stageConstruct (s : State) (b : Band) : State :=
  ((s.setCoef b Coef.identity).setHist b .ch0 Hist.zero).setHist b .ch1 Hist.zero

/-- A port after power-on reset: idle, with nothing pending and nothing undelivered (R160). What the agent has left to
send and has received is the host's and stays. -/
def Port.powerOn (q : Port) : Port := { q with state := .idle, pending := none, undelivered := none }

/-- Power-on reset of a machine (R160, R161): every register at its value of R160, `STAGE_CONSTRUCT` for every stage, the
sample memory untouched. It is no step of the model (R148). -/
def State.powerOnReset (s : State) : State :=
  allBands.foldl State.stageConstruct
    { allBands.foldl (fun t b => t.setGain b f0) s with
      en := Config.enableReset
      initd := false
      fs := none
      ctrl := s.ctrl.powerOn
      audio := s.audio.powerOn }

end Sys2Proof.Machine
end

