-- ==== Sys2Proof/Machine/Biquad.lean ====
section
/-! DEFINITION. The biquad stage and the coefficient calculator (40_biquad_filter.md R80 to R90), every operation in the
order the pseudocode writes it (R8). -/

namespace Sys2Proof.Machine

/-- w = 2*pi*f/fs (R82). -/
def omega (f fs : F32) : F32 := fdiv (fmul twoPi32 f) fs

/-- A = 10^(g/40) (R82). -/
def ampOf (g : F32) : F32 := pow32 f10 (fdiv g f40)

/-- The peaking set from Q and R82's intermediates A, sin w and cos w (R83). -/
def peakingSet (q amp sn cs : F32) : Coef :=
  let al := fdiv sn (fmul f2 q)
  let aA := fmul al amp
  let adA := fdiv al amp
  let a0 := fadd f1 adA
  let m2c := fmul fNeg2 cs
  { b0 := fdiv (fadd f1 aA) a0
    b1 := fdiv m2c a0
    b2 := fdiv (fsub f1 aA) a0
    a1 := fdiv m2c a0
    a2 := fdiv (fsub f1 adA) a0 }

/-- The low-shelf set from Q and R82's intermediates (R84). -/
def lowShelfSet (q amp sn cs : F32) : Coef :=
  let beta := fdiv (fsqrt amp) q
  let bs := fmul beta sn
  let ap1 := fadd amp f1
  let am1 := fsub amp f1
  let a0 := fadd (fadd ap1 (fmul am1 cs)) bs
  { b0 := fdiv (fmul amp (fadd (fsub ap1 (fmul am1 cs)) bs)) a0
    b1 := fdiv (fmul (fmul f2 amp) (fsub am1 (fmul ap1 cs))) a0
    b2 := fdiv (fmul amp (fsub (fsub ap1 (fmul am1 cs)) bs)) a0
    a1 := fdiv (fmul fNeg2 (fadd am1 (fmul ap1 cs))) a0
    a2 := fdiv (fsub (fadd ap1 (fmul am1 cs)) bs) a0 }

/-- The high-shelf set from Q and R82's intermediates (R85). -/
def highShelfSet (q amp sn cs : F32) : Coef :=
  let beta := fdiv (fsqrt amp) q
  let bs := fmul beta sn
  let ap1 := fadd amp f1
  let am1 := fsub amp f1
  let a0 := fadd (fsub ap1 (fmul am1 cs)) bs
  { b0 := fdiv (fmul amp (fadd (fadd ap1 (fmul am1 cs)) bs)) a0
    b1 := fdiv (fmul (fmul fNeg2 amp) (fadd am1 (fmul ap1 cs))) a0
    b2 := fdiv (fmul amp (fsub (fadd ap1 (fmul am1 cs)) bs)) a0
    a1 := fdiv (fmul f2 (fsub am1 (fmul ap1 cs))) a0
    a2 := fdiv (fsub (fsub ap1 (fmul am1 cs)) bs) a0 }

/-- `PEAKING(f, fs, g, Q)` (R83). -/
def peaking (f fs g q : F32) : Coef := peakingSet q (ampOf g) (sin32 (omega f fs)) (cos32 (omega f fs))

/-- `LOWSHELF(f, fs, g, Q)` (R84). -/
def lowShelf (f fs g q : F32) : Coef := lowShelfSet q (ampOf g) (sin32 (omega f fs)) (cos32 (omega f fs))

/-- `HIGHSHELF(f, fs, g, Q)` (R85). -/
def highShelf (f fs g q : F32) : Coef := highShelfSet q (ampOf g) (sin32 (omega f fs)) (cos32 (omega f fs))

/-- The set a tune of band `b` computes from the sample rate and the gain (R88). -/
def bandCoef (b : Band) (fs g : F32) : Coef :=
  match topo b with
  | .lowShelf => lowShelf (freq b) fs g (qf b)
  | .highShelf => highShelf (freq b) fs g (qf b)
  | .peaking => peaking (freq b) fs g (qf b)

/-- `TUNE(b)` (R88). -/
def State.tune (s : State) (b : Band) : State := s.setCoef b (bandCoef b s.rate (s.gainAt b))

/-- `for b in 0 .. 8: TUNE(b)` (R100, R106). -/
def State.tuneAll (s : State) : State := allBands.foldl State.tune s

/-- The output of a stage from its coefficients, its history and its input, the sum of R86 from left to right. -/
def stageOut (k : Coef) (h : Hist) (x : F32) : F32 :=
  let t1 := fmul k.b0 x
  let t2 := fadd t1 (fmul k.b1 h.x1)
  let t3 := fadd t2 (fmul k.b2 h.x2)
  let t4 := fsub t3 (fmul k.a1 h.y1)
  fsub t4 (fmul k.a2 h.y2)

/-- The history after a stage has taken `x` and given `y` (R86): the unclipped output is kept. -/
def histShift (h : Hist) (x y : F32) : Hist := { x1 := x, x2 := h.x1, y1 := y, y2 := h.y1 }

/-- `STAGE_PROCESS(b, c, x)` (R86): the output and the state with the shifted history. -/
def State.stageProcess (s : State) (b : Band) (c : Channel) (x : F32) : F32 × State :=
  let y := stageOut (s.coefAt b c) (s.histAt b c) x
  (y, s.setHist b c (histShift (s.histAt b c) x y))

/-- `STAGE_RESET(b, c)` (R87). -/
def State.stageReset (s : State) (b : Band) (c : Channel) : State := s.setHist b c Hist.zero

/-- `STAGE_RESET` of all 18 stages (R106). -/
def State.clearHist (s : State) : State :=
  allBands.foldl (fun t b => (t.stageReset b .ch0).stageReset b .ch1) s

end Sys2Proof.Machine
end

