-- ==== Sys2Proof/Machine/Audio.lean ====
section
/-! DEFINITION. The sample pipeline and the output limiter (42_audio_pipeline.md R120 to R128). -/

namespace Sys2Proof.Machine

/-- `CHAIN(c, x)` (R123): the nine stages of the channel in ascending band order, each fed the unclipped output of the
one before. -/
def State.chain (s : State) (c : Channel) (x : F32) : F32 × State :=
  allBands.foldl (fun p b => p.2.stageProcess b c p.1) (x, s)

/-- `CLIP(y)` of a y that is not a NaN (R124). -/
def clipNumber (y : F32) : F32 := if fgt y f1 then f1 else if flt y fNeg1 then fNeg1 else y

/-- `CLIP(y)` (R124): a NaN gives a draw in [-1, 1]. -/
def State.clip (s : State) (y : F32) : F32 × State :=
  if isNaN y then s.draw fNeg1 f1 else (clipNumber y, s)

/-- One processed sample (R120, R45): read the word, send it through the chain, write the clipped result back. -/
def State.processSample (s : State) (base nchan f : Nat) (c : Channel) : State :=
  let a := sampleAddr base f c nchan
  let y := s.chain c (s.memRead a)
  let v := y.2.clip y.1
  v.2.memWrite a v.1

/-- The processed channels of frame `f`, ascending (R120, R122). -/
def State.processFrame (s : State) (base nchan f : Nat) : State :=
  (processedChannels nchan).foldl (fun t c => t.processSample base nchan f c) s

/-- `count` frames from frame `f` on, ascending (R120). -/
def State.processFrames (base nchan : Nat) : Nat → Nat → State → State
  | 0, _, s => s
  | count + 1, f, s => State.processFrames base nchan count (f + 1) (s.processFrame base nchan f)

/-- `PROCESS` is active: `EN = 1` and `INITD = 1` (R121). -/
def State.active (s : State) : Bool := s.initd && s.en

/-- `PROCESS base, nframes, nchan` (R120), with the checks in the order of R145. -/
def execProcess (base nframes nchan : Word) (s : State) : Host.Outcome State Fault Refusal :=
  if s.active then
    if decide (0 < nframes.toNat * nchan.toNat) && !s.bufOk base.toNat (nframes.toNat * nchan.toNat) then
      .fault (.bufferRange base nframes nchan)
    else
      .next ((State.processFrames base.toNat nchan.toNat nframes.toNat 0 s).respond (Response.done 0#32))
  else .next (s.respond (Response.done 0#32))

end Sys2Proof.Machine
end

