-- ==== Sys2Proof/Machine/Control.lean ====
section
/-! DEFINITION. The control commands (41_control.md R100 to R108). Each is one atomic step that ends in its response. -/

namespace Sys2Proof.Machine

/-- `CLAMP(g)` of a g that is not a NaN (R101). -/
def clampNumber (g : F32) : F32 := if flt g fNeg30 then fNeg30 else if fgt g f30 then f30 else g

/-- `CLAMP(g)` (R101): a NaN gives a draw in [-30, 30]. -/
def State.clamp (s : State) (g : F32) : F32 × State :=
  if isNaN g then s.draw fNeg30 f30 else (clampNumber g, s)

/-- `INIT fs` (R100). -/
def execInit (fs : F32) (s : State) : Host.Outcome State Fault Refusal :=
  .next (({ s with fs := some fs, initd := true } : State).tuneAll.respond (Response.done 0#32))

/-- The re-tune of `SETGAIN` (R102) and `RESET` (R106): only when `INITD = 1`. -/
def State.whenInit (s : State) (f : State → State) : State := if s.initd then f s else s

/-- `SETGAIN b, g` (R102). -/
def execSetgain (b : BitVec 4) (g : F32) (s : State) : Host.Outcome State Fault Refusal :=
  match bandIndex b with
  | none => .next (s.respond (Response.done 0#32))
  | some k =>
    let v := s.clamp g
    .next (((v.2.setGain k v.1).whenInit (fun t => t.tune k)).respond (Response.done 0#32))

/-- `GETGAIN b` (R103): +0.0 for a band out of range. -/
def execGetgain (b : BitVec 4) (s : State) : Host.Outcome State Fault Refusal :=
  match bandIndex b with
  | none => .next (s.respond (Response.done 0#32))
  | some k => .next (s.respond (Response.done (s.gainAt k)))

/-- `SETEN e` (R104). -/
def execSeten (e : Bool) (s : State) : Host.Outcome State Fault Refusal :=
  .next (({ s with en := e } : State).respond (Response.done 0#32))

/-- `GETEN` (R105). -/
def execGeten (s : State) : Host.Outcome State Fault Refusal :=
  .next (s.respond (Response.done (zext32 s.en)))

/-- `for b in 0 .. 8: GAIN[b] <- +0.0` (R106). -/
def State.zeroGains (s : State) : State := allBands.foldl (fun t b => t.setGain b f0) s

/-- `RESET` (R106). -/
def execReset (s : State) : Host.Outcome State Fault Refusal :=
  .next ((s.zeroGains.whenInit State.tuneAll).clearHist.respond (Response.done 0#32))

end Sys2Proof.Machine
end

