-- ==== Sys2Proof/Machine/Dispatch.lean ====
section
/-! DEFINITION. One arm per command, each a direct call of its meaning. -/

namespace Sys2Proof.Machine

def exec (i : Instr) (s : State) : Host.Outcome State Fault Refusal :=
  match i with
  | .init fs => Sys2Proof.Machine.execInit fs s
  | .setgain b g => Sys2Proof.Machine.execSetgain b g s
  | .getgain b => Sys2Proof.Machine.execGetgain b s
  | .seten e => Sys2Proof.Machine.execSeten e s
  | .geten => Sys2Proof.Machine.execGeten s
  | .reset => Sys2Proof.Machine.execReset s
  | .process base nframes nchan => Sys2Proof.Machine.execProcess base nframes nchan s

end Sys2Proof.Machine
end

