-- ==== Sys2Proof/Machine/Perform.lean ====
section
/-! DEFINITION. The moves of the model: an agent sends, the block performs, an agent takes (60_exceptions.md R148;
20_memory.md R50, R57), and the choice among them. -/

namespace Sys2Proof.Machine

/-- Every move there is. -/
def allMoves : List Move :=
  [.send .ctrl, .send .audio, .perform .ctrl, .perform .audio, .take .ctrl, .take .audio]

/-- A port accepts a new message only when it is idle, with nothing pending and no response still to be taken (R34,
R57). -/
def Port.free (q : Port) : Bool := q.state == .idle && q.pending.isNone && q.undelivered.isNone

/-- Whether a move can happen (R148, R57). -/
def State.enabled (s : State) : Move → Bool
  | .send p => (s.port p).free && !(s.port p).toSend.isEmpty
  | .perform p => (s.port p).pending.isSome
  | .take p => (s.port p).undelivered.isSome

/-- The moves that can happen now. -/
def State.enabledMoves (s : State) : List Move := allMoves.filter s.enabled

/-- The free choice among several possible moves (R57, R148, U11; log 6). -/
def State.freeMove (s : State) (ms : List Move) : Option Move := ms[Config.freePick s.picks % ms.length]?

/-- The move of this step: none when nothing can happen; the only one when there is one; among several the launch's
scheduled move if it can happen, and a free choice otherwise (log 6). -/
def State.chooseMove (s : State) : Option Move :=
  match s.enabledMoves with
  | [] => none
  | [m] => some m
  | m :: m' :: ms =>
    match s.schedule with
    | [] => s.freeMove (m :: m' :: ms)
    | n :: _ => if n ∈ m :: m' :: ms then some n else s.freeMove (m :: m' :: ms)

/-- The choice is used up (log 6). -/
def State.tick (s : State) : State := { s with schedule := s.schedule.tail, picks := s.picks + 1 }

/-- Agent `p` sends its next message: it becomes pending on the port (R148). -/
def State.sendNext (s : State) (p : PortId) : State :=
  match (s.port p).toSend with
  | [] => s
  | m :: rest => s.setPort p { s.port p with pending := some m, toSend := rest }

/-- Agent `p` takes its delivered response (R148, R171). -/
def State.takeResponse (s : State) (p : PortId) : State :=
  match (s.port p).undelivered with
  | none => s
  | some r => s.setPort p { s.port p with undelivered := none, received := (s.port p).received ++ [r] }

/-- The block performs message `m` of port `p` as one atomic step (R148, R50): decode, then the command's rule, or the
`ILLEGAL` response and no other effect (R68, R145). -/
def performMessage (p : PortId) (m : Message) (s : State) : Host.Outcome State Fault Refusal :=
  match decode m with
  | .ok i => exec i (s.accept p m)
  | .error _ => .next ((s.accept p m).respond Response.illegal)

/-- The effect of a move (R148). -/
def doMove (mv : Move) (s : State) : Host.Outcome State Fault Refusal :=
  match mv with
  | .send p => .next (s.sendNext p)
  | .take p => .next (s.takeResponse p)
  | .perform p =>
    match (s.port p).pending with
    | none => .next s
    | some m => performMessage p m s

/-- The state with message `m` pending on port `p` and the next choice fixed to performing it. -/
def State.placeMessage (s : State) (p : PortId) (m : Message) : State :=
  { s.setPort p { s.port p with state := .idle, pending := some m, undelivered := none } with
    schedule := .perform p :: s.schedule }

/-- A launch's agents: what each has to send (R33, R57). -/
def State.load (s : State) (ctrl audio : List Message) : State :=
  { s with ctrl := { s.ctrl with toSend := ctrl }, audio := { s.audio with toSend := audio } }

end Sys2Proof.Machine
end

