-- ==== Sys2Proof/Machine/Step.lean ====
section
/-! DEFINITION. One step of the model (60_exceptions.md R148). The block has no program counter and fetches nothing
(R33, R55): what is performed next is the message pending on a port. -/

namespace Sys2Proof.Machine

/-- One step. When no move can happen the block waits and holds all state (R153, R160). -/
def step (s : State) : Host.Outcome State Fault Refusal :=
  match s.chooseMove with
  | none => .next s
  | some mv => doMove mv s.tick

/-- The state whose next step performs the message of the bits `w` (log 1): the message is pending on port CTRL. -/
def State.withFetchWord (s : State) (nbits w : Nat) : State := s.placeMessage .ctrl (messageOfBits nbits w)

end Sys2Proof.Machine
end

