-- ==== Sys2Proof/Machine/Assembler.lean ====
section
/-! DEFINITION. The assembler of 30_encoding.md R73 and the pseudo-commands of R74. A line is a list of characters; what
R73 leaves to a tokenizer (blanks, digits' letter case) is settled in log 16. -/

namespace Sys2Proof.Machine

/-- The pseudo-commands (R74). -/
inductive Pseudo where
  | enable
  | disable
  /-- `LOADCFG e, g0, ..., g8`. -/
  | loadcfg (e : Bool) (gains : Vector F32 9)
  | savecfg
deriving DecidableEq, Repr

/-- The BAND field of a band of the block. -/
def bandField (b : Band) : BitVec 4 := BitVec.ofNat 4 b.val

/-- `SETGAIN b, g_b` for b = 0 .. 8, in that order (R74). -/
def loadGains (gains : Vector F32 9) : List Instr :=
  (List.finRange 9).map (fun b => Instr.setgain (bandField b) gains[b.val])

/-- `GETGAIN 0` through `GETGAIN 8` (R74). -/
def readGains : List Instr := (List.finRange 9).map (fun b => Instr.getgain (bandField b))

/-- The expansion of a pseudo-command (R74). It is not atomic: its messages are separate steps (R57). -/
def Pseudo.expand : Pseudo → List Instr
  | .enable => [.seten true]
  | .disable => [.seten false]
  | .loadcfg e gains => .seten e :: loadGains gains
  | .savecfg => .geten :: readGains

/-- The port of a line that names none: `AUDIO` for `PROCESS`, `CTRL` for the rest (R73). -/
def defaultPort : Instr → PortId
  | .process _ _ _ => .audio
  | _ => .ctrl

/-- An assembled line: the port and the commands it sends there, in order. -/
structure Line where
  port   : PortId
  instrs : List Instr
deriving DecidableEq, Repr

/-- The messages of a line: command word, then operand words (R73, R61, R63). -/
def Line.messages (l : Line) : List Message := l.instrs.map encode

/-- A blank between tokens. -/
def isBlank (c : Char) : Bool := c == ' ' || c == '\t'

/-- The characters without blanks at either end. -/
def strip (cs : List Char) : List Char := ((cs.dropWhile isBlank).reverse.dropWhile isBlank).reverse

/-- The parts between commas. -/
def splitCommas : List Char → List (List Char)
  | [] => [[]]
  | c :: cs =>
    match splitCommas cs with
    | [] => [[c]]
    | w :: ws => if c == ',' then [] :: w :: ws else (c :: w) :: ws

/-- The value of one digit in a base up to 16. -/
def digitVal (base : Nat) (c : Char) : Option Nat :=
  let v := if '0' ≤ c ∧ c ≤ '9' then c.toNat - '0'.toNat
    else if 'a' ≤ c ∧ c ≤ 'f' then c.toNat - 'a'.toNat + 10
    else if 'A' ≤ c ∧ c ≤ 'F' then c.toNat - 'A'.toNat + 10
    else 16
  if v < base then some v else none

/-- The number a list of digits writes, after the value read so far. -/
def readDigits (base acc : Nat) : List Char → Option Nat
  | [] => some acc
  | c :: cs =>
    match digitVal base c with
    | none => none
    | some d => readDigits base (acc * base + d) cs

/-- A number of at least one digit. -/
def parseDigits (base : Nat) (cs : List Char) : Option Nat := if cs.isEmpty then none else readDigits base 0 cs

/-- An integer literal: decimal, or hexadecimal with `0x` (R73). -/
def parseNat : List Char → Option Nat
  | '0' :: 'x' :: cs => parseDigits 16 cs
  | cs => parseDigits 10 cs

/-- A u32 literal (R73). -/
def parseU32 (cs : List Char) : Option Word :=
  (parseNat cs).bind (fun n => if n < 2 ^ 32 then some (BitVec.ofNat 32 n) else none)

/-- A decimal without its sign: digits, or digits, a point and digits; the nearest binary32 magnitude to it (R73). -/
def parseDecimal (neg : Bool) (cs : List Char) : Option F32 :=
  let whole := cs.takeWhile (· != '.')
  let frac := (cs.dropWhile (· != '.')).drop 1
  let digits := if cs.contains '.' then (if whole.isEmpty || frac.isEmpty then [] else whole ++ frac) else whole
  (parseDigits 10 digits).map (fun n => packF neg (roundMag (n * 2 ^ 149) (10 ^ frac.length)))

/-- A binary32 literal: a decimal, or a bit pattern with `0x` (R73). -/
def parseF32 : List Char → Option F32
  | '0' :: 'x' :: cs => parseU32 ('0' :: 'x' :: cs)
  | '-' :: cs => parseDecimal true cs
  | cs => parseDecimal false cs

/-- A band literal, 0 .. 15 (R73). -/
def parseBand (cs : List Char) : Option (BitVec 4) :=
  (parseNat cs).bind (fun n => if n < 16 then some (BitVec.ofNat 4 n) else none)

/-- An enable literal, 0 or 1 (R73). -/
def parseEnable (cs : List Char) : Option Bool :=
  (parseNat cs).bind (fun n => if n = 0 then some false else if n = 1 then some true else none)

/-- Nine gain literals (R74). -/
def parseGains (ops : List (List Char)) : Option (Vector F32 9) :=
  match ops.mapM parseF32 with
  | some [g0, g1, g2, g3, g4, g5, g6, g7, g8] => some #v[g0, g1, g2, g3, g4, g5, g6, g7, g8]
  | _ => none

/-- The commands of a mnemonic and its operands (R73, R74). -/
def parseCommand (name : List Char) (ops : List (List Char)) : Option (List Instr) :=
  if name = ['I', 'N', 'I', 'T'] then
    match ops with
    | [a] => (parseF32 a).map (fun fs => [.init fs])
    | _ => none
  else if name = ['S', 'E', 'T', 'G', 'A', 'I', 'N'] then
    match ops with
    | [a, b] => (parseBand a).bind (fun k => (parseF32 b).map (fun g => [.setgain k g]))
    | _ => none
  else if name = ['G', 'E', 'T', 'G', 'A', 'I', 'N'] then
    match ops with
    | [a] => (parseBand a).map (fun k => [.getgain k])
    | _ => none
  else if name = ['S', 'E', 'T', 'E', 'N'] then
    match ops with
    | [a] => (parseEnable a).map (fun e => [.seten e])
    | _ => none
  else if name = ['G', 'E', 'T', 'E', 'N'] then (if ops.isEmpty then some [.geten] else none)
  else if name = ['R', 'E', 'S', 'E', 'T'] then (if ops.isEmpty then some [.reset] else none)
  else if name = ['P', 'R', 'O', 'C', 'E', 'S', 'S'] then
    match ops with
    | [a, b, c] =>
      (parseU32 a).bind (fun x => (parseU32 b).bind (fun y => (parseU32 c).map (fun z => [.process x y z])))
    | _ => none
  else if name = ['E', 'N', 'A', 'B', 'L', 'E'] then (if ops.isEmpty then some Pseudo.enable.expand else none)
  else if name = ['D', 'I', 'S', 'A', 'B', 'L', 'E'] then (if ops.isEmpty then some Pseudo.disable.expand else none)
  else if name = ['L', 'O', 'A', 'D', 'C', 'F', 'G'] then
    match ops with
    | [] => none
    | a :: gs => (parseEnable a).bind (fun e => (parseGains gs).map (fun v => (Pseudo.loadcfg e v).expand))
  else if name = ['S', 'A', 'V', 'E', 'C', 'F', 'G'] then (if ops.isEmpty then some Pseudo.savecfg.expand else none)
  else none

/-- A mnemonic and its operands, without port and comment (R73). -/
def parseBody (cs : List Char) : Option (List Instr) :=
  let name := cs.takeWhile (fun c => !isBlank c)
  let rest := strip (cs.dropWhile (fun c => !isBlank c))
  parseCommand name (if rest.isEmpty then [] else (splitCommas rest).map strip)

/-- A port name (R73). -/
def parsePort (cs : List Char) : Option PortId :=
  if cs = ['C', 'T', 'R', 'L'] then some .ctrl
  else if cs = ['A', 'U', 'D', 'I', 'O'] then some .audio
  else none

/-- One line: `[port:] MNEMONIC [operand {, operand}] [; comment]` (R73). -/
def parseLine (cs : List Char) : Option Line :=
  let code := cs.takeWhile (· != ';')
  if code.contains ':' then
    (parsePort (strip (code.takeWhile (· != ':')))).bind (fun p =>
      (parseBody (strip ((code.dropWhile (· != ':')).drop 1))).map (fun is => ⟨p, is⟩))
  else
    (parseBody (strip code)).map (fun is => ⟨(is.head?.map defaultPort).getD .ctrl, is⟩)

/-- The messages a program of lines sends on port `p`, in order (R73, R57). -/
def messagesOn (p : PortId) (ls : List Line) : List Message :=
  (ls.filter (fun l => l.port == p)).flatMap Line.messages

end Sys2Proof.Machine
end

