-- ==== Sys2Proof/Safety.lean ====
section
/-! DEFINITION. What claims are stated in terms of: the invariants of 10_state.md R37 and of the model's memory and
ports, the end of a run and what a claim observes (70_reset_and_hazards.md R171). -/

namespace Sys2Proof.Machine

/-- R37(a), R24: every gain is a number in [-30, 30]. -/
def State.GainsClamped (s : State) : Prop := ∀ b : Band, inRange fNeg30 f30 (s.gainAt b) = true

/-- R37(b): the two channels of a band hold the same coefficients, bit for bit. -/
def State.CoefsPaired (s : State) : Prop := ∀ b : Band, s.coefAt b .ch0 = s.coefAt b .ch1

/-- R37(c): before `INIT` every stage holds the identity set. -/
def State.IdentityUntilInit (s : State) : Prop :=
  s.initd = false → ∀ (b : Band) (c : Channel), s.coefAt b c = Coef.identity

/-- R37(d): once initialized, the block has a sample rate. -/
def State.RateKnown (s : State) : Prop := s.initd = true → s.fs ≠ none

/-- The memory is in canonical form and lists no byte outside the 2^32 words (R40). -/
def State.MemSound (s : State) : Prop := s.mem.wf = true ∧ s.mem.inSpace = true

/-- Between steps a port is idle (R34) and has at most one outstanding message (R57). -/
def Port.Orderly (q : Port) : Prop := q.state = .idle ∧ (q.pending = none ∨ q.undelivered = none)

/-- Both ports are orderly. -/
def State.PortsOrderly (s : State) : Prop := s.ctrl.Orderly ∧ s.audio.Orderly

/-- The invariant of the model: R37, the memory's form and the ports' discipline. -/
structure State.Inv (s : State) : Prop where
  gains  : s.GainsClamped
  coefs  : s.CoefsPaired
  ident  : s.IdentityUntilInit
  rate   : s.RateKnown
  memory : s.MemSound
  ports  : s.PortsOrderly

/-- A port with nothing to send, nothing pending and nothing undelivered. -/
def Port.done (q : Port) : Bool := q.toSend.isEmpty && q.pending.isNone && q.undelivered.isNone

/-- The run has ended (R171); a fault is the outcome of a step and never of a state. -/
def State.ended (s : State) : Bool := s.ctrl.done && s.audio.done

/-- What a claim about a run observes (R171): the responses each port received, the sample memory, and the block's state
of R20. -/
structure Observation where
  ctrlResponses  : List Response
  audioResponses : List Response
  mem   : Memory
  gain  : Vector F32 9
  en    : Bool
  initd : Bool
  fs    : Option F32
  coef  : Vector (Stereo Coef) 9
  hist  : Vector (Stereo Hist) 9
  ctrl  : PortState
  audio : PortState
deriving DecidableEq, Repr

/-- The observation of a state (R171). -/
def State.observe (s : State) : Observation where
  ctrlResponses  := s.ctrl.received
  audioResponses := s.audio.received
  mem   := s.mem
  gain  := s.gain
  en    := s.en
  initd := s.initd
  fs    := s.fs
  coef  := s.coef
  hist  := s.hist
  ctrl  := s.ctrl.state
  audio := s.audio.state

/-- What an agent and its port have left to do: a message to send costs a send, a performance and a taking. -/
def Port.left (q : Port) : Nat :=
  3 * q.toSend.length + (if q.pending.isSome then 2 else 0) + (if q.undelivered.isSome then 1 else 0)

/-- The moves a state has left before it ends, one message on each port at a time (R57, R169). -/
def State.left (s : State) : Nat := s.ctrl.left + s.audio.left

/-! ### Words for statements -/

/-- From `s` to `t` the response `r` was recorded on the port being served, the port went idle, and nothing else about
either port changed (R13, R148). -/
def State.Answered (s t : State) (r : Response) : Prop :=
  t.port s.serving = { s.port s.serving with state := .idle, undelivered := some r } ∧
    ∀ p, p ≠ s.serving → t.port p = s.port p

/-- The registers of the block of R20, the ports apart, are the same. -/
def State.RegsSame (s t : State) : Prop :=
  t.gain = s.gain ∧ t.en = s.en ∧ t.initd = s.initd ∧ t.fs = s.fs ∧ t.coef = s.coef ∧ t.hist = s.hist

/-- What the launch fixes, the choice of moves and the served port are the same. -/
def State.LaunchSame (s t : State) : Prop :=
  t.lent = s.lent ∧ t.serving = s.serving ∧ t.schedule = s.schedule ∧ t.picks = s.picks

/-- Nothing but the response: no register, no byte of memory, no draw. -/
def State.OnlyAnswered (s t : State) (r : Response) : Prop :=
  s.Answered t r ∧ s.RegsSame t ∧ s.LaunchSame t ∧ t.mem = s.mem ∧ t.draws = s.draws

/-- Commands performed one after the other with nothing between, up to the first fault. -/
def runInstrs : List Instr → State → Host.Outcome State Fault Refusal
  | [], s => .next s
  | i :: rest, s =>
    match exec i s with
    | .next t => runInstrs rest t
    | .fault f => .fault f
    | .refused r => .refused r

/-! ### A reference for one channel: the stages as a list in band order, the samples as a list -/

/-- One sample through a list of stages: the output and the shifted histories (R123, R86). -/
def chainRef : List (Coef × Hist) → F32 → F32 × List Hist
  | [], x => (x, [])
  | (k, h) :: rest, x =>
    let y := stageOut k h x
    let r := chainRef rest y
    (r.1, histShift h x y :: r.2)

/-- A stream of samples through one channel: the outputs before the limiter and the final histories (R125). -/
def streamRef (ks : List Coef) : List Hist → List F32 → List F32 × List Hist
  | hs, [] => ([], hs)
  | hs, x :: xs =>
    let r := chainRef (ks.zip hs) x
    let q := streamRef ks r.2 xs
    (r.1 :: q.1, q.2)

/-- The coefficient sets of a channel, in band order. -/
def State.coefsOf (s : State) (c : Channel) : List Coef := allBands.map (fun b => s.coefAt b c)

/-- The histories of a channel, in band order. -/
def State.histsOf (s : State) (c : Channel) : List Hist := allBands.map (fun b => s.histAt b c)

/-- The samples of channel `c` in a buffer of `n` frames, in order (R41). -/
def State.inputsOf (s : State) (base n nchan : Nat) (c : Channel) : List F32 :=
  (List.range n).map (fun f => s.memRead (sampleAddr base f c nchan))

/-- The outputs of one stage on a stream of samples, from a history (R86). -/
def stageStream (k : Coef) : Hist → List F32 → List F32
  | _, [] => []
  | h, x :: xs => stageOut k h x :: stageStream k (histShift h x (stageOut k h x)) xs

/-- `base` is the address of the buffer and `a` is a word that `PROCESS` reads and writes (R45). -/
def IsSampleWord (base n nchan a : Nat) : Prop :=
  ∃ f < n, ∃ c ∈ processedChannels nchan, a = sampleAddr base f c nchan

end Sys2Proof.Machine
end

