-- ==== Sys2Proof/Certificates/Slice0/Obligations.lean ====
section
/-! DEFINITION. The statements for the provers, each with the rules of spec/ it formalises. The statements hold for every
choice of the free values of Config.lean: none rests on one. -/

open Sys2Proof Sys2Proof.Machine

/-! ### Encoding (30_encoding.md) -/

/-- R61 to R63, R70: decoding the encoding of any command gives the command back, with every operand at every value its
field admits. -/
def Obligations.DecodeOfEncodeGivesTheCommand : Prop := ∀ i : Instr, decode (encode i) = .ok i

/-- R61 to R63, R70: a message that decodes is the encoding of what it decodes to, so each command has one spelling. -/
def Obligations.EncodeOfDecodeGivesTheMessage : Prop := ∀ (m : Message) (i : Instr), decode m = .ok i → encode i = m

/-- R66, R67, R70: the decoder rejects exactly the messages the field layout forbids, for the first reason in R70's
order, and accepts the rest. -/
def Obligations.DecoderChecksInOrder : Prop :=
  ∀ m : Message,
    (decode m = .error .reservedOpcode ↔ m.opcodeAssigned = false) ∧
    (decode m = .error .reservedBit ↔ m.opcodeAssigned = true ∧ m.reservedClear = false) ∧
    (decode m = .error .operandCount ↔
      m.opcodeAssigned = true ∧ m.reservedClear = true ∧ m.countFits = false) ∧
    ((∃ i, decode m = .ok i) ↔ m.wellFormed = true)

/-- R62: no command word matches two rows of the opcode table. -/
def Obligations.OpcodeRowsNeverOverlap : Prop :=
  ∀ (w : Word) (r r' : OpRow), r ∈ opcodeTable → r' ∈ opcodeTable →
    w &&& r.mask = r.pattern → w &&& r'.mask = r'.pattern → r = r'

/-- 95_test_vectors.md V-E1, V-E7, V-E12, V-E14, V-E18, V-E20, V-E22: one word of every command, and V-E6, V-E3, V-E26 of
every reason to reject. -/
def Obligations.SpecWordsDecodeAsListed : Prop :=
  decode ⟨0x10000000#32, [0x472C4400#32]⟩ = .ok (.init 0x472C4400#32) ∧
  decode ⟨0x28000000#32, [0x41200000#32]⟩ = .ok (.setgain 8#4 0x41200000#32) ∧
  decode ⟨0x39000000#32, []⟩ = .ok (.getgain 9#4) ∧
  decode ⟨0x40000001#32, []⟩ = .ok (.seten true) ∧
  decode ⟨0x50000000#32, []⟩ = .ok .geten ∧
  decode ⟨0x60000000#32, []⟩ = .ok .reset ∧
  decode ⟨0x70000000#32, [0x100#32, 2#32, 2#32]⟩ = .ok (.process 0x100#32 2#32 2#32) ∧
  decode ⟨0x10800000#32, [0x472C4400#32]⟩ = .error .reservedBit ∧
  decode ⟨0x10000000#32, [0x472C4400#32, 0#32]⟩ = .error .operandCount ∧
  decode ⟨0xFFFFFFFF#32, []⟩ = .error .reservedOpcode

/-- R71: the first message is cut off a stream of words from its command word alone. -/
def Obligations.StreamCutsAtTheMessageLength : Prop :=
  ∀ (m : Message) (i : Instr) (rest : List Word), decode m = .ok i →
    takeMessage (m.word :: (m.ops ++ rest)) = some (m, rest)

/-- R75: a host's band index 0 .. 8 names its band, and every other integer index names none. -/
def Obligations.HostBandIndexNamesItsBand : Prop :=
  ∀ i : Int,
    (0 ≤ i ∧ i ≤ 8 → ∃ b : Band, bandIndex (hostBand i) = some b ∧ (b.val : Int) = i) ∧
    (¬(0 ≤ i ∧ i ≤ 8) → hostBand i = 0xF#4 ∧ bandIndex (hostBand i) = none)

/-- R74: `LOADCFG e, g0 .. g8`, performed command by command from any state, leaves `EN = e`, every gain at its clamped
value, the coefficients of an initialized block tuned to them, and everything else as it was. -/
def Obligations.LoadcfgLoadsEnableAndGains : Prop :=
  ∀ (e : Bool) (gains : Vector F32 9) (s : State), ∃ t,
    runInstrs (Pseudo.loadcfg e gains).expand s = .next t ∧
    t.en = e ∧
    (∀ b : Band, inRange fNeg30 f30 (t.gainAt b) = true ∧
      (isNaN gains[b.val] = false → t.gainAt b = clampNumber gains[b.val])) ∧
    (∀ (b : Band) (c : Channel),
      t.coefAt b c = if s.initd then bandCoef b s.rate (t.gainAt b) else s.coefAt b c) ∧
    t.initd = s.initd ∧ t.fs = s.fs ∧ t.hist = s.hist ∧ t.mem = s.mem

/-! ### Numbers (00_scope.md R8, R9) -/

/-- R8: `roundMag` gives the magnitude nearest to `num / den` units, ties to even, among all finite ones. -/
def Obligations.RoundingIsNearestTiesToEven : Prop :=
  ∀ num den p : Nat, 0 < den → p < infMag → roundMag num den < infMag →
    |(unitsOf (roundMag num den) : Int) * den - num| ≤ |(unitsOf p : Int) * den - num| ∧
    (|(unitsOf (roundMag num den) : Int) * den - num| = |(unitsOf p : Int) * den - num| →
      p ≠ roundMag num den → roundMag num den % 2 = 0)

/-- R8 (IEEE 754 overflow): a magnitude rounds to infinity exactly when it is at least the largest finite value plus half
a unit in its last place, 2^128 - 2^103, that is 2^277 - 2^252 units. -/
def Obligations.RoundingOverflowsAtTheIeeeBound : Prop :=
  ∀ num den : Nat, 0 < den → (roundMag num den = infMag ↔ (2 ^ 277 - 2 ^ 252) * den ≤ num)

/-- R8: `fadd` and `fsub` of finite operands. The result is finite exactly when the exact sum or difference is below the
overflow bound 2^277 - 2^252 units in magnitude (log 13); then no finite value is nearer, and where a different value is
as near the result's magnitude bits are even; otherwise it is the infinity of the exact value's sign. -/
def Obligations.AddAndSubAreCorrectlyRounded : Prop :=
  ∀ a b : F32, isFinite a = true → isFinite b = true →
    (let r := fadd a b
     let x := valOf a + valOf b
     (isFinite r = true ↔ |x| < 2 ^ 277 - 2 ^ 252) ∧
     (isFinite r = false → r = if x < 0 then 0xFF800000#32 else 0x7F800000#32) ∧
     ∀ v : F32, isFinite v = true → isFinite r = true →
       |valOf r - x| ≤ |valOf v - x| ∧ (|valOf r - x| = |valOf v - x| → valOf v ≠ valOf r → magOf r % 2 = 0)) ∧
    (let r := fsub a b
     let x := valOf a - valOf b
     (isFinite r = true ↔ |x| < 2 ^ 277 - 2 ^ 252) ∧
     (isFinite r = false → r = if x < 0 then 0xFF800000#32 else 0x7F800000#32) ∧
     ∀ v : F32, isFinite v = true → isFinite r = true →
       |valOf r - x| ≤ |valOf v - x| ∧ (|valOf r - x| = |valOf v - x| → valOf v ≠ valOf r → magOf r % 2 = 0))

/-- R8: `fmul` of finite operands, as for `fadd`; the exact product is counted in units of 2^-298, so a value in units of
2^-149 is scaled by 2^149 to be compared with it. -/
def Obligations.MulIsCorrectlyRounded : Prop :=
  ∀ a b : F32, isFinite a = true → isFinite b = true →
    let r := fmul a b
    let x := valOf a * valOf b
    (isFinite r = true ↔ |x| < (2 ^ 277 - 2 ^ 252) * 2 ^ 149) ∧
    (isFinite r = false → r = if x < 0 then 0xFF800000#32 else 0x7F800000#32) ∧
    ∀ v : F32, isFinite v = true → isFinite r = true →
      |valOf r * 2 ^ 149 - x| ≤ |valOf v * 2 ^ 149 - x| ∧
      (|valOf r * 2 ^ 149 - x| = |valOf v * 2 ^ 149 - x| → valOf v ≠ valOf r → magOf r % 2 = 0)

/-- R8: `fdiv` of finite operands. By a nonzero operand it is correctly rounded as `fadd` is (both sides multiplied by the
divisor); a nonzero operand divided by a zero is the infinity whose sign is the exclusive or of the signs, and zero by
zero is a NaN (IEEE 754, log 13). -/
def Obligations.DivIsCorrectlyRounded : Prop :=
  ∀ a b : F32, isFinite a = true → isFinite b = true →
    let r := fdiv a b
    let x := valOf a * 2 ^ 149
    (isZero b = false →
      (isFinite r = true ↔ |x| < (2 ^ 277 - 2 ^ 252) * |valOf b|) ∧
      (isFinite r = false → r = if signOf a = signOf b then 0x7F800000#32 else 0xFF800000#32) ∧
      ∀ v : F32, isFinite v = true → isFinite r = true →
        |valOf r * valOf b - x| ≤ |valOf v * valOf b - x| ∧
        (|valOf r * valOf b - x| = |valOf v * valOf b - x| → valOf v ≠ valOf r → magOf r % 2 = 0)) ∧
    (isZero b = true → isZero a = false → r = if signOf a = signOf b then 0x7F800000#32 else 0xFF800000#32) ∧
    (isZero b = true → isZero a = true → isNaN r = true)

/-- R9: `fsqrt`. Of a positive finite value it is finite and correctly rounded: the exact root lies on the result's side of
the midpoint between the result and any other nonnegative finite value v (squared, so that no root is written; the root
of n units is the root of n * 2^149 units). A zero and the positive infinity are their own roots; a NaN and every
negative value but -0.0 give a NaN (IEEE 754, log 13). -/
def Obligations.SqrtIsCorrectlyRounded : Prop :=
  ∀ a : F32,
    (isFinite a = true → isZero a = false → signOf a = false →
      isFinite (fsqrt a) = true ∧ signOf (fsqrt a) = false ∧
      ∀ v : F32, isFinite v = true → signOf v = false →
        (valOf v < valOf (fsqrt a) → (valOf v + valOf (fsqrt a)) ^ 2 ≤ 4 * (valOf a * 2 ^ 149)) ∧
        (valOf (fsqrt a) < valOf v → 4 * (valOf a * 2 ^ 149) ≤ (valOf v + valOf (fsqrt a)) ^ 2) ∧
        (valOf v ≠ valOf (fsqrt a) → (valOf v + valOf (fsqrt a)) ^ 2 = 4 * (valOf a * 2 ^ 149) →
          magOf (fsqrt a) % 2 = 0)) ∧
    (isZero a = true → fsqrt a = a) ∧
    (fsqrt 0x7F800000#32 = 0x7F800000#32) ∧
    (isNaN a = true → isNaN (fsqrt a) = true) ∧
    (isZero a = false → signOf a = true → isNaN (fsqrt a) = true)

/-- R9: whatever the open functions are, `sin32`, `cos32` and `pow32` keep the three laws. -/
def Obligations.OpenFunctionsKeepTheirLaws : Prop :=
  (∀ x y : F32, isZero y = true → pow32 x y = f1) ∧
  (∀ x : F32, isFinite x = true → isZero x = false →
    isFinite (sin32 x) = true ∧ inRange fNeg1 f1 (sin32 x) = true ∧
    isFinite (cos32 x) = true ∧ inRange fNeg1 f1 (cos32 x) = true) ∧
  (∀ y : F32, inRange 0xBF400000#32 0x3F400000#32 y = true →
    isFinite (pow32 f10 y) = true ∧ flt f0 (pow32 f10 y) = true)

/-- R21, R6: each entry of the binary32 frequency table is exactly its integer frequency (a value is counted in units of
2^-149). -/
def Obligations.FrequencyTableIsExact : Prop :=
  ∀ b : Band, isFinite (freq b) = true ∧ valOf (freq b) = (freqHz b : Int) * 2 ^ 149

/-- R22, R23: the topology and the quality factor of every band. -/
def Obligations.TopologyAndQualityByBand : Prop :=
  ∀ b : Band,
    topo b = (if b = 0 then .lowShelf else if b = 8 then .highShelf else .peaking) ∧
    qf b = (if topo b = .peaking then 0x3F800000#32 else 0x3F34FDF4#32)

/-! ### The stage and the coefficient calculator (40_biquad_filter.md) -/

/-- R86 (and conflict C7): an output computed from a NaN anywhere in the input or the history is a NaN, and the history
then holds it in `y1`, so that every later output is a NaN until a stage reset. -/
def Obligations.NaNStaysInAStage : Prop :=
  ∀ (k : Coef) (h : Hist) (x : F32),
    isNaN x = true ∨ isNaN h.x1 = true ∨ isNaN h.x2 = true ∨ isNaN h.y1 = true ∨ isNaN h.y2 = true →
    isNaN (stageOut k h x) = true ∧ isNaN (histShift h x (stageOut k h x)).y1 = true ∧
    ∀ xs : List F32, ∀ y ∈ stageStream k (histShift h x (stageOut k h x)) xs, isNaN y = true

/-- R90: at a gain of +0.0 or -0.0, with finite sine and cosine and a finite nonzero a0, every recipe gives `b0 = 1.0`,
`b2 = a2` and `b1 = a1`, the last up to the sign of a zero when the cosine is zero. -/
def Obligations.ZeroGainGivesAnIdentitySet : Prop :=
  ∀ g q sn cs : F32, isZero g = true → isFinite sn = true → isFinite cs = true →
    (let k := peakingSet q (ampOf g) sn cs
     let a0 := fadd f1 (fdiv (fdiv sn (fmul f2 q)) (ampOf g))
     isFinite a0 = true → isZero a0 = false → k.b0 = f1 ∧ k.b1 = k.a1 ∧ k.b2 = k.a2) ∧
    (let k := lowShelfSet q (ampOf g) sn cs
     let a0 := fadd (fadd (fadd (ampOf g) f1) (fmul (fsub (ampOf g) f1) cs)) (fmul (fdiv (fsqrt (ampOf g)) q) sn)
     isFinite a0 = true → isZero a0 = false →
       k.b0 = f1 ∧ k.b2 = k.a2 ∧ (k.b1 = k.a1 ∨ (isZero cs = true ∧ isZero k.b1 = true ∧ isZero k.a1 = true))) ∧
    (let k := highShelfSet q (ampOf g) sn cs
     let a0 := fadd (fsub (fadd (ampOf g) f1) (fmul (fsub (ampOf g) f1) cs)) (fmul (fdiv (fsqrt (ampOf g)) q) sn)
     isFinite a0 = true → isZero a0 = false →
       k.b0 = f1 ∧ k.b2 = k.a2 ∧ (k.b1 = k.a1 ∨ (isZero cs = true ∧ isZero k.b1 = true ∧ isZero k.a1 = true)))

/-- R90, R128(c): a stage with such a set and cleared history answers 1.0 followed by +0.0 values with 1.0 followed by
+0.0 values, and an all-zero input with an all-zero output, exactly. -/
def Obligations.IdentityStagePassesAnImpulse : Prop :=
  ∀ (k : Coef) (n : Nat), k.b0 = f1 → k.b1 = k.a1 → k.b2 = k.a2 → isFinite k.b1 = true → isFinite k.b2 = true →
    stageStream k Hist.zero (f1 :: List.replicate n f0) = f1 :: List.replicate n f0 ∧
    stageStream k Hist.zero (List.replicate n f0) = List.replicate n f0

/-- R125: what a chain answers on channel c, and the histories it leaves there, depend only on channel c's coefficients,
channel c's histories and the sample; the other channel's histories stay. -/
def Obligations.ChannelsAreIndependent : Prop :=
  ∀ (s t : State) (c : Channel) (x : F32),
    (∀ b, s.coefAt b c = t.coefAt b c) → (∀ b, s.histAt b c = t.histAt b c) →
    (s.chain c x).1 = (t.chain c x).1 ∧
    (∀ b, (s.chain c x).2.histAt b c = (t.chain c x).2.histAt b c) ∧
    (∀ b c', c' ≠ c → (s.chain c x).2.histAt b c' = s.histAt b c')

/-! ### Control commands (41_control.md) -/

/-- R100: `INIT fs` stores the rate, sets `INITD`, and tunes every band on both channels from the stored gain and the new
rate; gains, `EN`, history and memory stay; the response is 0. -/
def Obligations.InitTunesEveryBand : Prop :=
  ∀ (fs : F32) (s : State), ∃ t, exec (.init fs) s = .next t ∧
    t.fs = some fs ∧ t.initd = true ∧
    (∀ b c, t.coefAt b c = bandCoef b fs (s.gainAt b)) ∧
    t.gain = s.gain ∧ t.en = s.en ∧ t.hist = s.hist ∧ t.mem = s.mem ∧ t.draws = s.draws ∧
    s.LaunchSame t ∧ s.Answered t ⟨0#32, .ok⟩

/-- R102: `SETGAIN b, g` of a band in range stores the clamped gain (a value in the range when g is a NaN), re-tunes both
channels of that band when `INITD = 1` and no coefficient otherwise; every other register and the memory stay; the
response is 0. -/
def Obligations.SetgainStoresAndRetunesOneBand : Prop :=
  ∀ (b : BitVec 4) (k : Band) (g : F32) (s : State), bandIndex b = some k →
    ∃ t, exec (.setgain b g) s = .next t ∧
      inRange fNeg30 f30 (t.gainAt k) = true ∧ (isNaN g = false → t.gainAt k = clampNumber g) ∧
      (∀ b', b' ≠ k → t.gainAt b' = s.gainAt b') ∧
      (∀ b' c, t.coefAt b' c =
        if b' = k ∧ s.initd = true then bandCoef k s.rate (t.gainAt k) else s.coefAt b' c) ∧
      t.en = s.en ∧ t.initd = s.initd ∧ t.fs = s.fs ∧ t.hist = s.hist ∧ t.mem = s.mem ∧
      (isNaN g = false → t.draws = s.draws) ∧
      s.LaunchSame t ∧ s.Answered t ⟨0#32, .ok⟩

/-- R64: the BAND field 0 .. 8 names bands 0 .. 8; 9 .. 15 are legal encodings, with which `SETGAIN` changes nothing and
`GETGAIN` answers +0.0. -/
def Obligations.BandsNineToFifteenAreInert : Prop :=
  (∀ b : BitVec 4, b.toNat ≤ 8 → ∃ k : Band, bandIndex b = some k ∧ k.val = b.toNat) ∧
  ∀ (b : BitVec 4) (g : F32) (s : State), 8 < b.toNat →
    decode (encode (.setgain b g)) = .ok (.setgain b g) ∧ decode (encode (.getgain b)) = .ok (.getgain b) ∧
    (∃ t, exec (.setgain b g) s = .next t ∧ s.OnlyAnswered t ⟨0#32, .ok⟩) ∧
    (∃ t, exec (.getgain b) s = .next t ∧ s.OnlyAnswered t ⟨0x00000000#32, .ok⟩)

/-- R103: `GETGAIN b` of a band in range answers the bits of `GAIN[b]` and changes nothing. -/
def Obligations.GetgainAnswersTheGain : Prop :=
  ∀ (b : BitVec 4) (k : Band) (s : State), bandIndex b = some k →
    ∃ t, exec (.getgain b) s = .next t ∧ s.OnlyAnswered t ⟨s.gainAt k, .ok⟩

/-- R104: `SETEN e` writes `EN` only, in both modes. -/
def Obligations.SetenWritesEnableOnly : Prop :=
  ∀ (e : Bool) (s : State), ∃ t, exec (.seten e) s = .next t ∧
    t.en = e ∧ t.gain = s.gain ∧ t.initd = s.initd ∧ t.fs = s.fs ∧ t.coef = s.coef ∧ t.hist = s.hist ∧
    t.mem = s.mem ∧ t.draws = s.draws ∧ s.LaunchSame t ∧ s.Answered t ⟨0#32, .ok⟩

/-- R105: `GETEN` answers 1 when enabled and 0 when not, and changes nothing. -/
def Obligations.GetenAnswersTheEnable : Prop :=
  ∀ s : State, ∃ t, exec .geten s = .next t ∧ s.OnlyAnswered t ⟨if s.en then 1#32 else 0#32, .ok⟩

/-- R106: `RESET` sets every gain to +0.0, re-tunes every band at that gain when `INITD = 1` and no coefficient otherwise,
and clears every history; `EN`, `INITD`, `FS` and the memory stay; the response is 0. -/
def Obligations.ResetFlattensAndClears : Prop :=
  ∀ s : State, ∃ t, exec .reset s = .next t ∧
    (∀ b, t.gainAt b = 0x00000000#32) ∧
    (∀ b c, t.coefAt b c = if s.initd then bandCoef b s.rate 0x00000000#32 else s.coefAt b c) ∧
    (∀ b c, t.histAt b c = ⟨0#32, 0#32, 0#32, 0#32⟩) ∧
    t.en = s.en ∧ t.initd = s.initd ∧ t.fs = s.fs ∧ t.mem = s.mem ∧ t.draws = s.draws ∧
    s.LaunchSame t ∧ s.Answered t ⟨0#32, .ok⟩

/-- R106, V-T3: a second `RESET` leaves every register as the first left it. -/
def Obligations.ResetTwiceIsResetOnce : Prop :=
  ∀ s : State, ∃ t u, exec .reset s = .next t ∧ exec .reset t = .next u ∧ t.RegsSame u ∧ u.mem = t.mem

/-- R101: the clamp's result is a number in [-30, 30] for every operand, equal to -30.0 below the range, to 30.0 above it
and to the operand inside it; only a NaN takes a draw. -/
def Obligations.ClampLandsInTheGainRange : Prop :=
  ∀ (s : State) (g : F32),
    inRange 0xC1F00000#32 0x41F00000#32 (s.clamp g).1 = true ∧
    (isNaN g = false → (s.clamp g).2 = s) ∧
    (flt g 0xC1F00000#32 = true → (s.clamp g).1 = 0xC1F00000#32) ∧
    (fgt g 0x41F00000#32 = true → (s.clamp g).1 = 0x41F00000#32) ∧
    (inRange 0xC1F00000#32 0x41F00000#32 g = true → (s.clamp g).1 = g)

/-- R32, C2: only these commands write these things: `GAIN[b]` by `SETGAIN` of that band and `RESET`; `EN` by `SETEN`;
`INITD` and `FS` by `INIT`; the coefficients of a band by `INIT`, `RESET` and `SETGAIN` of that band; history by `RESET`
and `PROCESS`; memory by `PROCESS`. -/
def Obligations.OnlyTheseCommandsWrite : Prop :=
  ∀ (i : Instr) (s t : State), exec i s = .next t →
    (∀ b, t.gainAt b ≠ s.gainAt b → i = .reset ∨ ∃ w g, i = .setgain w g ∧ bandIndex w = some b) ∧
    (t.en ≠ s.en → ∃ e, i = .seten e) ∧
    (t.initd ≠ s.initd → ∃ fs, i = .init fs) ∧
    (t.fs ≠ s.fs → ∃ fs, i = .init fs) ∧
    (∀ b c, t.coefAt b c ≠ s.coefAt b c →
      i = .reset ∨ (∃ fs, i = .init fs) ∨ ∃ w g, i = .setgain w g ∧ bandIndex w = some b) ∧
    (t.hist ≠ s.hist → i = .reset ∨ ∃ x y z, i = .process x y z) ∧
    (t.mem ≠ s.mem → ∃ x y z, i = .process x y z)

/-- R107: after any message the block is `Ready` exactly when it was, or the message is an `INIT`; an `ILLEGAL` message
changes no mode. -/
def Obligations.ModeTransitionsFollowTheTable : Prop :=
  ∀ (p : PortId) (m : Message) (s t : State), performMessage p m s = .next t →
    (t.initd = true ↔ s.initd = true ∨ ∃ fs, decode m = .ok (.init fs))

/-! ### The sample pipeline (42_audio_pipeline.md) -/

/-- R121: `PROCESS` is active exactly when `EN = 1` and `INITD = 1`; an inactive one makes no access, writes no history,
never faults and answers 0, whatever its operands. -/
def Obligations.InactiveProcessDoesNothing : Prop :=
  ∀ (base nframes nchan : Word) (s : State),
    (s.active = true ↔ s.en = true ∧ s.initd = true) ∧
    (s.active = false → ∃ t, exec (.process base nframes nchan) s = .next t ∧ s.OnlyAnswered t ⟨0#32, .ok⟩)

/-- R47, R143, R145: a command faults exactly when it is an active `PROCESS` of a nonempty region that is not inside one
lent region of the 2^32 words (the one-region reading of `BUF_OK` is the model's, log 8), and then with
`F_BUFFER_RANGE` and its operands. -/
def Obligations.OnlyABadBufferFaults : Prop :=
  ∀ (i : Instr) (s : State) (f : Fault), exec i s = .fault f ↔
    ∃ base nframes nchan : Word, i = .process base nframes nchan ∧ f = .bufferRange base nframes nchan ∧
      s.en = true ∧ s.initd = true ∧ 0 < nframes.toNat * nchan.toNat ∧
      ¬(base.toNat + nframes.toNat * nchan.toNat ≤ 2 ^ 32 ∧
        ∃ r ∈ s.lent, r.base ≤ base.toNat ∧ base.toNat + nframes.toNat * nchan.toNat ≤ r.base + r.size)

/-- R120, R46: an active `PROCESS` whose region is empty or admitted completes with response 0, and its frame: every byte
outside the sample words of R45 reads as before, the histories of a channel that is not processed stay, and so does
every register but the history. -/
def Obligations.ActiveProcessCompletes : Prop :=
  ∀ (base nframes nchan : Word) (s : State), s.active = true →
    (0 < nframes.toNat * nchan.toNat → s.bufOk base.toNat (nframes.toNat * nchan.toNat) = true) →
    ∃ t, exec (.process base nframes nchan) s = .next t ∧
      t.gain = s.gain ∧ t.en = s.en ∧ t.initd = s.initd ∧ t.fs = s.fs ∧ t.coef = s.coef ∧
      (∀ x, ¬IsSampleWord base.toNat nframes.toNat nchan.toNat (x / 4) → t.mem.read x = s.mem.read x) ∧
      (∀ b c, c ∉ processedChannels nchan.toNat → t.histAt b c = s.histAt b c) ∧
      (nframes.toNat * nchan.toNat = 0 → t.mem = s.mem ∧ t.hist = s.hist) ∧
      s.LaunchSame t ∧ s.Answered t ⟨0#32, .ok⟩

/-- R120 with R45, R86, R123, R124, R125: an active `PROCESS` is, on each processed channel, the stream of that channel's
samples sent through that channel's nine stages in ascending order from the histories they had; each sample word ends
as the clipped output (a value in [-1, 1] where the output is a NaN), and the histories end as the stream leaves
them. -/
def Obligations.ProcessFiltersEachChannelStream : Prop :=
  ∀ (base nframes nchan : Word) (s : State), s.active = true → s.mem.wf = true →
    (0 < nframes.toNat * nchan.toNat → s.bufOk base.toNat (nframes.toNat * nchan.toNat) = true) →
    ∃ t, exec (.process base nframes nchan) s = .next t ∧
      ∀ c ∈ processedChannels nchan.toNat,
        let r := streamRef (s.coefsOf c) (s.histsOf c) (s.inputsOf base.toNat nframes.toNat nchan.toNat c)
        t.histsOf c = r.2 ∧ r.1.length = nframes.toNat ∧
        ∀ (f : Nat) (y : F32), r.1[f]? = some y →
          (isNaN y = false → t.memRead (sampleAddr base.toNat f c nchan.toNat) = clipNumber y) ∧
          (isNaN y = true → inRange fNeg1 f1 (t.memRead (sampleAddr base.toNat f c nchan.toNat)) = true)

/-- R128(a): every word an active `PROCESS` writes holds a value in [-1, 1]. -/
def Obligations.ProcessOutputsStayInRange : Prop :=
  ∀ (base nframes nchan : Word) (s t : State), s.active = true → s.mem.wf = true →
    exec (.process base nframes nchan) s = .next t →
    ∀ a, IsSampleWord base.toNat nframes.toNat nchan.toNat a →
      inRange 0xBF800000#32 0x3F800000#32 (t.memRead a) = true

/-- R124: the limiter's result is a number in [-1, 1] for every operand, equal to 1.0 above the range, to -1.0 below it and
to the operand inside it; only a NaN takes a draw. -/
def Obligations.ClipLandsInTheSampleRange : Prop :=
  ∀ (s : State) (y : F32),
    inRange 0xBF800000#32 0x3F800000#32 (s.clip y).1 = true ∧
    (isNaN y = false → (s.clip y).2 = s) ∧
    (fgt y 0x3F800000#32 = true → (s.clip y).1 = 0x3F800000#32) ∧
    (flt y 0xBF800000#32 = true → (s.clip y).1 = 0xBF800000#32) ∧
    (inRange 0xBF800000#32 0x3F800000#32 y = true → (s.clip y).1 = y)

/-- R41, R45, R47: the sample words of an admitted region lie inside the declared region and inside the sample memory, and
no two of them are the same word. -/
def Obligations.SampleWordsAreDistinctAndInside : Prop :=
  ∀ (base nframes nchan : Nat) (s : State), s.bufOk base (nframes * nchan) = true →
    (∀ a, IsSampleWord base nframes nchan a → base ≤ a ∧ a < base + nframes * nchan ∧ a < 2 ^ 32) ∧
    (∀ f c f' c', c ∈ processedChannels nchan → c' ∈ processedChannels nchan →
      sampleAddr base f c nchan = sampleAddr base f' c' nchan → f = f' ∧ c = c')

/-! ### Memory (20_memory.md) -/

/-- R44, R42: a word read after a write to the same word gives the word written, its bytes lie least significant first, and
every other word reads as before. -/
def Obligations.WordReadsBackAsWritten : Prop :=
  ∀ (s : State) (a : Nat) (v : Word), s.mem.wf = true →
    (s.memWrite a v).memRead a = v ∧
    (∀ k < 4, (s.memWrite a v).mem.read (4 * a + k) = v.extractLsb' (8 * k) 8) ∧
    (∀ a', a' ≠ a → (s.memWrite a v).memRead a' = s.memRead a')

/-! ### Steps, ports and reset (60_exceptions.md R148, 70_reset_and_hazards.md) -/

/-- R148, R50: when the move is to perform port p's pending message and it decodes to i, the step is exactly the
command's effect, on the state whose port p is busy with the message and whose choice is used up. -/
def Obligations.StepRunsTheDecodedCommand : Prop :=
  ∀ (s : State) (p : PortId) (m : Message) (i : Instr),
    s.chooseMove = some (.perform p) → (s.port p).pending = some m → decode m = .ok i →
    step s = exec i (s.tick.accept p m)

/-- Log 1 (the model's own loader): a message placed on a port is what the next step performs, whatever else the state
holds. -/
def Obligations.PlacedMessageIsPerformedNext : Prop :=
  ∀ (s : State) (p : PortId) (m : Message),
    (s.placeMessage p m).chooseMove = some (.perform p) ∧ ((s.placeMessage p m).port p).pending = some m

/-- R68: an `ILLEGAL` message completes and changes no register, no stage and no memory word; its response is
`RESP = 0`, `ST = 1`. -/
def Obligations.IllegalMessageOnlyAnswers : Prop :=
  ∀ (p : PortId) (m : Message) (e : DecodeError) (s : State), decode m = .error e →
    ∃ t, performMessage p m s = .next t ∧ s.RegsSame t ∧ t.mem = s.mem ∧ t.draws = s.draws ∧
      t.lent = s.lent ∧
      t.port p = { s.port p with state := .idle, pending := none, undelivered := some ⟨0x00000000#32, .illegal⟩ } ∧
      (∀ p', p' ≠ p → t.port p' = s.port p')

/-- R57, R148: an agent sends only its next message, and only to an idle port with nothing outstanding; it takes only a
delivered response, which is added after those it took before; neither move changes a register or the memory. -/
def Obligations.AgentMovesFollowThePortProtocol : Prop :=
  ∀ (s t : State) (p : PortId), step s = .next t →
    (s.chooseMove = some (.send p) →
      ∃ m rest, (s.port p).toSend = m :: rest ∧ (s.port p).state = .idle ∧ (s.port p).pending = none ∧
        (s.port p).undelivered = none ∧ t.port p = { s.port p with pending := some m, toSend := rest } ∧
        (∀ p', p' ≠ p → t.port p' = s.port p') ∧ s.RegsSame t ∧ t.mem = s.mem) ∧
    (s.chooseMove = some (.take p) →
      ∃ r, (s.port p).undelivered = some r ∧
        t.port p = { s.port p with undelivered := none, received := (s.port p).received ++ [r] } ∧
        (∀ p', p' ≠ p → t.port p' = s.port p') ∧ s.RegsSame t ∧ t.mem = s.mem)

/-- R57, U11: every interleaving is there: a launch can make any possible move the next one. -/
def Obligations.EveryPossibleMoveCanComeNext : Prop :=
  ∀ (s : State) (mv : Move), s.enabled mv = true →
    ({ s with schedule := mv :: s.schedule } : State).chooseMove = some mv

/-- R60, R69: every message gets exactly one response: what an agent has left to send, what is outstanding and what it has
received add up to the same number after every step. -/
def Obligations.EveryMessageGetsOneResponse : Prop :=
  ∀ s t : State, s.PortsOrderly → step s = .next t → ∀ p,
    (t.port p).toSend.length + (t.port p).pending.toList.length + (t.port p).undelivered.toList.length
        + (t.port p).received.length
      = (s.port p).toSend.length + (s.port p).pending.toList.length + (s.port p).undelivered.toList.length
        + (s.port p).received.length

/-- R37, R34, R57, R40: the invariant of the model, kept by every step from every state that meets it: gains in range, equal
coefficients on both channels, identity coefficients before `INIT`, a rate once initialized, canonical memory inside
the address space, idle ports with at most one outstanding message. -/
def Obligations.EveryStepKeepsTheInvariant : Prop := ∀ s t : State, s.Inv → step s = .next t → t.Inv

/-- R160: the state after power-on reset meets the invariant. -/
def Obligations.PowerOnStateMeetsTheInvariant : Prop := State.reset.Inv

/-- R160: the values power-on reset leaves, whatever `ENABLE_RESET` is. -/
def Obligations.PowerOnValuesAreAsListed : Prop :=
  (∀ b, State.reset.gainAt b = 0x00000000#32) ∧
  State.reset.en = Config.enableReset ∧ State.reset.initd = false ∧ State.reset.fs = none ∧
  (∀ b c, State.reset.coefAt b c = ⟨0x3F800000#32, 0#32, 0#32, 0#32, 0#32⟩) ∧
  (∀ b c, State.reset.histAt b c = ⟨0#32, 0#32, 0#32, 0#32⟩) ∧
  (∀ p, (State.reset.port p).state = .idle ∧ (State.reset.port p).pending = none ∧
    (State.reset.port p).undelivered = none)

/-- R160, R161: power-on reset of a running machine gives every register its power-on value, makes both ports idle with
nothing pending or undelivered, and does not touch the sample memory. -/
def Obligations.PowerOnResetRestoresEveryRegister : Prop :=
  ∀ s : State, State.reset.RegsSame s.powerOnReset ∧ s.powerOnReset.mem = s.mem ∧
    ∀ p, (s.powerOnReset.port p).state = .idle ∧ (s.powerOnReset.port p).pending = none ∧
      (s.powerOnReset.port p).undelivered = none

/-- R171, R169: from every state with orderly ports, a run of enough steps stops in the model fault or reaches the end of
the run: nothing left to send, nothing pending, every response delivered. -/
def Obligations.EveryRunEndsOrFaults : Prop :=
  ∀ (s : State) (k : Nat), s.PortsOrderly → s.left ≤ k →
    (∃ f, Host.Core.run Sys2Proof.core k s = .fault f) ∨
    (∃ t, Host.Core.run Sys2Proof.core k s = .next t ∧ t.ended = true)

/-- R153, R160: when nothing can be sent, performed or taken, a step changes nothing at all: the block waits and holds its
state. -/
def Obligations.EndedMachineHoldsItsState : Prop := ∀ s : State, s.ended = true → step s = .next s

/-- R73: lines of the spec's own programs assemble to the words the spec lists for them (P2 lines 3 and 1, P3 line 4). -/
def Obligations.SpecLinesAssembleAsListed : Prop :=
  (parseLine ['S', 'E', 'T', 'G', 'A', 'I', 'N', ' ', '1', '2', ',', ' ', '5', '.', '0']).map
      (fun l => (l.port, l.messages)) = some (.ctrl, [⟨0x2C000000#32, [0x40A00000#32]⟩]) ∧
  (parseLine ['S', 'E', 'T', 'G', 'A', 'I', 'N', ' ', '8', ',', ' ', '-', '1', '0', '0', '.', '0']).map
      (fun l => (l.port, l.messages)) = some (.ctrl, [⟨0x28000000#32, [0xC2C80000#32]⟩]) ∧
  (parseLine ['P', 'R', 'O', 'C', 'E', 'S', 'S', ' ', '0', 'x', '2', '0', '0', ',', ' ', '2', ',', ' ', '3']).map
      (fun l => (l.port, l.messages)) = some (.audio, [⟨0x70000000#32, [0x200#32, 2#32, 3#32]⟩])

/-- R8, R12, with IEEE 754's rules for the operands that have no finite value and for exact zero sums (log 13): a NaN
operand gives a NaN; an infinity plus a finite value or an infinity of its own sign is that infinity, and opposite
infinities give a NaN, with `fsub` the `fadd` of the negation up to the bits of a NaN; an infinity times a zero is a NaN
and times anything else an infinity; infinities divide to a NaN, an infinity by a finite value is an infinity and a
finite value by an infinity a zero, with the exclusive or of the signs; a finite sum of value zero is -0.0 exactly
when both operands are -0.0; and a product, or a quotient by a nonzero operand, of finite operands has the exclusive or of
their signs, a zero result included. -/
def Obligations.SpecialOperandsFollowIeee : Prop :=
  ∀ a b : F32,
    (isNaN a = true ∨ isNaN b = true → isNaN (fadd a b) = true ∧ isNaN (fsub a b) = true ∧
      isNaN (fmul a b) = true ∧ isNaN (fdiv a b) = true) ∧
    (isInf a = true → isFinite b = true ∨ b = a → fadd a b = a ∧ fadd b a = a) ∧
    (isInf a = true → b = fneg a → isNaN (fadd a b) = true) ∧
    (isNaN a = false → isNaN b = false →
      fsub a b = fadd a (fneg b) ∨ isNaN (fsub a b) = true ∧ isNaN (fadd a (fneg b)) = true) ∧
    (isInf a = true → isZero b = true →
      isNaN (fmul a b) = true ∧ isNaN (fmul b a) = true ∧ fdiv b a = (if signOf a = signOf b then 0#32 else 0x80000000#32)) ∧
    (isInf a = true → isNaN b = false → isZero b = false →
      fmul a b = (if signOf a = signOf b then 0x7F800000#32 else 0xFF800000#32) ∧
      fmul b a = (if signOf a = signOf b then 0x7F800000#32 else 0xFF800000#32)) ∧
    (isInf a = true → isInf b = true → isNaN (fdiv a b) = true) ∧
    (isInf a = true → isFinite b = true →
      fdiv a b = (if signOf a = signOf b then 0x7F800000#32 else 0xFF800000#32) ∧
      fdiv b a = (if signOf a = signOf b then 0#32 else 0x80000000#32)) ∧
    (isFinite a = true → isFinite b = true → valOf a + valOf b = 0 →
      fadd a b = if a = 0x80000000#32 ∧ b = 0x80000000#32 then 0x80000000#32 else 0#32) ∧
    (isFinite a = true → isFinite b = true →
      signOf (fmul a b) = (signOf a ^^ signOf b) ∧ (isZero b = false → signOf (fdiv a b) = (signOf a ^^ signOf b)))
end

