-- ==== Sys2Proof/Laws/State.lean ====
section
/-! SUPPORT. What each update of the state leaves alone, field by field, and what it writes, so that no later proof unfolds a
record update. -/

namespace Sys2Proof.Machine

variable (s : State)

/-! ### memWrite -/

@[simp] theorem State.memWrite_gain (a : Nat) (v : Word) : (s.memWrite a v).gain = s.gain := rfl
@[simp] theorem State.memWrite_en (a : Nat) (v : Word) : (s.memWrite a v).en = s.en := rfl
@[simp] theorem State.memWrite_initd (a : Nat) (v : Word) : (s.memWrite a v).initd = s.initd := rfl
@[simp] theorem State.memWrite_fs (a : Nat) (v : Word) : (s.memWrite a v).fs = s.fs := rfl
@[simp] theorem State.memWrite_coef (a : Nat) (v : Word) : (s.memWrite a v).coef = s.coef := rfl
@[simp] theorem State.memWrite_hist (a : Nat) (v : Word) : (s.memWrite a v).hist = s.hist := rfl
@[simp] theorem State.memWrite_ctrl (a : Nat) (v : Word) : (s.memWrite a v).ctrl = s.ctrl := rfl
@[simp] theorem State.memWrite_audio (a : Nat) (v : Word) : (s.memWrite a v).audio = s.audio := rfl
@[simp] theorem State.memWrite_lent (a : Nat) (v : Word) : (s.memWrite a v).lent = s.lent := rfl
@[simp] theorem State.memWrite_serving (a : Nat) (v : Word) : (s.memWrite a v).serving = s.serving := rfl
@[simp] theorem State.memWrite_draws (a : Nat) (v : Word) : (s.memWrite a v).draws = s.draws := rfl
@[simp] theorem State.memWrite_schedule (a : Nat) (v : Word) : (s.memWrite a v).schedule = s.schedule := rfl
@[simp] theorem State.memWrite_picks (a : Nat) (v : Word) : (s.memWrite a v).picks = s.picks := rfl

/-! ### setGain -/

@[simp] theorem State.setGain_en (b : Band) (v : F32) : (s.setGain b v).en = s.en := rfl
@[simp] theorem State.setGain_initd (b : Band) (v : F32) : (s.setGain b v).initd = s.initd := rfl
@[simp] theorem State.setGain_fs (b : Band) (v : F32) : (s.setGain b v).fs = s.fs := rfl
@[simp] theorem State.setGain_coef (b : Band) (v : F32) : (s.setGain b v).coef = s.coef := rfl
@[simp] theorem State.setGain_hist (b : Band) (v : F32) : (s.setGain b v).hist = s.hist := rfl
@[simp] theorem State.setGain_ctrl (b : Band) (v : F32) : (s.setGain b v).ctrl = s.ctrl := rfl
@[simp] theorem State.setGain_audio (b : Band) (v : F32) : (s.setGain b v).audio = s.audio := rfl
@[simp] theorem State.setGain_mem (b : Band) (v : F32) : (s.setGain b v).mem = s.mem := rfl
@[simp] theorem State.setGain_lent (b : Band) (v : F32) : (s.setGain b v).lent = s.lent := rfl
@[simp] theorem State.setGain_serving (b : Band) (v : F32) : (s.setGain b v).serving = s.serving := rfl
@[simp] theorem State.setGain_draws (b : Band) (v : F32) : (s.setGain b v).draws = s.draws := rfl
@[simp] theorem State.setGain_schedule (b : Band) (v : F32) : (s.setGain b v).schedule = s.schedule := rfl
@[simp] theorem State.setGain_picks (b : Band) (v : F32) : (s.setGain b v).picks = s.picks := rfl

/-! ### setCoef -/

@[simp] theorem State.setCoef_gain (b : Band) (k : Coef) : (s.setCoef b k).gain = s.gain := rfl
@[simp] theorem State.setCoef_en (b : Band) (k : Coef) : (s.setCoef b k).en = s.en := rfl
@[simp] theorem State.setCoef_initd (b : Band) (k : Coef) : (s.setCoef b k).initd = s.initd := rfl
@[simp] theorem State.setCoef_fs (b : Band) (k : Coef) : (s.setCoef b k).fs = s.fs := rfl
@[simp] theorem State.setCoef_hist (b : Band) (k : Coef) : (s.setCoef b k).hist = s.hist := rfl
@[simp] theorem State.setCoef_ctrl (b : Band) (k : Coef) : (s.setCoef b k).ctrl = s.ctrl := rfl
@[simp] theorem State.setCoef_audio (b : Band) (k : Coef) : (s.setCoef b k).audio = s.audio := rfl
@[simp] theorem State.setCoef_mem (b : Band) (k : Coef) : (s.setCoef b k).mem = s.mem := rfl
@[simp] theorem State.setCoef_lent (b : Band) (k : Coef) : (s.setCoef b k).lent = s.lent := rfl
@[simp] theorem State.setCoef_serving (b : Band) (k : Coef) : (s.setCoef b k).serving = s.serving := rfl
@[simp] theorem State.setCoef_draws (b : Band) (k : Coef) : (s.setCoef b k).draws = s.draws := rfl
@[simp] theorem State.setCoef_schedule (b : Band) (k : Coef) : (s.setCoef b k).schedule = s.schedule := rfl
@[simp] theorem State.setCoef_picks (b : Band) (k : Coef) : (s.setCoef b k).picks = s.picks := rfl

/-! ### setHist -/

@[simp] theorem State.setHist_gain (b : Band) (c : Channel) (h : Hist) : (s.setHist b c h).gain = s.gain := rfl
@[simp] theorem State.setHist_en (b : Band) (c : Channel) (h : Hist) : (s.setHist b c h).en = s.en := rfl
@[simp] theorem State.setHist_initd (b : Band) (c : Channel) (h : Hist) : (s.setHist b c h).initd = s.initd := rfl
@[simp] theorem State.setHist_fs (b : Band) (c : Channel) (h : Hist) : (s.setHist b c h).fs = s.fs := rfl
@[simp] theorem State.setHist_coef (b : Band) (c : Channel) (h : Hist) : (s.setHist b c h).coef = s.coef := rfl
@[simp] theorem State.setHist_ctrl (b : Band) (c : Channel) (h : Hist) : (s.setHist b c h).ctrl = s.ctrl := rfl
@[simp] theorem State.setHist_audio (b : Band) (c : Channel) (h : Hist) : (s.setHist b c h).audio = s.audio := rfl
@[simp] theorem State.setHist_mem (b : Band) (c : Channel) (h : Hist) : (s.setHist b c h).mem = s.mem := rfl
@[simp] theorem State.setHist_lent (b : Band) (c : Channel) (h : Hist) : (s.setHist b c h).lent = s.lent := rfl
@[simp] theorem State.setHist_serving (b : Band) (c : Channel) (h : Hist) : (s.setHist b c h).serving = s.serving := rfl
@[simp] theorem State.setHist_draws (b : Band) (c : Channel) (h : Hist) : (s.setHist b c h).draws = s.draws := rfl
@[simp] theorem State.setHist_schedule (b : Band) (c : Channel) (h : Hist) : (s.setHist b c h).schedule = s.schedule := rfl
@[simp] theorem State.setHist_picks (b : Band) (c : Channel) (h : Hist) : (s.setHist b c h).picks = s.picks := rfl

/-! ### draw -/

@[simp] theorem State.draw_gain (lo hi : F32) : (s.draw lo hi).2.gain = s.gain := rfl
@[simp] theorem State.draw_en (lo hi : F32) : (s.draw lo hi).2.en = s.en := rfl
@[simp] theorem State.draw_initd (lo hi : F32) : (s.draw lo hi).2.initd = s.initd := rfl
@[simp] theorem State.draw_fs (lo hi : F32) : (s.draw lo hi).2.fs = s.fs := rfl
@[simp] theorem State.draw_coef (lo hi : F32) : (s.draw lo hi).2.coef = s.coef := rfl
@[simp] theorem State.draw_hist (lo hi : F32) : (s.draw lo hi).2.hist = s.hist := rfl
@[simp] theorem State.draw_ctrl (lo hi : F32) : (s.draw lo hi).2.ctrl = s.ctrl := rfl
@[simp] theorem State.draw_audio (lo hi : F32) : (s.draw lo hi).2.audio = s.audio := rfl
@[simp] theorem State.draw_mem (lo hi : F32) : (s.draw lo hi).2.mem = s.mem := rfl
@[simp] theorem State.draw_lent (lo hi : F32) : (s.draw lo hi).2.lent = s.lent := rfl
@[simp] theorem State.draw_serving (lo hi : F32) : (s.draw lo hi).2.serving = s.serving := rfl
@[simp] theorem State.draw_schedule (lo hi : F32) : (s.draw lo hi).2.schedule = s.schedule := rfl
@[simp] theorem State.draw_picks (lo hi : F32) : (s.draw lo hi).2.picks = s.picks := rfl

/-! ### setPort -/

@[simp] theorem State.setPort_gain (p : PortId) (q : Port) : (s.setPort p q).gain = s.gain := by cases p <;> rfl
@[simp] theorem State.setPort_en (p : PortId) (q : Port) : (s.setPort p q).en = s.en := by cases p <;> rfl
@[simp] theorem State.setPort_initd (p : PortId) (q : Port) : (s.setPort p q).initd = s.initd := by cases p <;> rfl
@[simp] theorem State.setPort_fs (p : PortId) (q : Port) : (s.setPort p q).fs = s.fs := by cases p <;> rfl
@[simp] theorem State.setPort_coef (p : PortId) (q : Port) : (s.setPort p q).coef = s.coef := by cases p <;> rfl
@[simp] theorem State.setPort_hist (p : PortId) (q : Port) : (s.setPort p q).hist = s.hist := by cases p <;> rfl
@[simp] theorem State.setPort_mem (p : PortId) (q : Port) : (s.setPort p q).mem = s.mem := by cases p <;> rfl
@[simp] theorem State.setPort_lent (p : PortId) (q : Port) : (s.setPort p q).lent = s.lent := by cases p <;> rfl
@[simp] theorem State.setPort_serving (p : PortId) (q : Port) : (s.setPort p q).serving = s.serving := by cases p <;> rfl
@[simp] theorem State.setPort_draws (p : PortId) (q : Port) : (s.setPort p q).draws = s.draws := by cases p <;> rfl
@[simp] theorem State.setPort_schedule (p : PortId) (q : Port) : (s.setPort p q).schedule = s.schedule := by cases p <;> rfl
@[simp] theorem State.setPort_picks (p : PortId) (q : Port) : (s.setPort p q).picks = s.picks := by cases p <;> rfl

/-! ### respond -/

@[simp] theorem State.respond_gain (r : Response) : (s.respond r).gain = s.gain := by simp [State.respond]
@[simp] theorem State.respond_en (r : Response) : (s.respond r).en = s.en := by simp [State.respond]
@[simp] theorem State.respond_initd (r : Response) : (s.respond r).initd = s.initd := by simp [State.respond]
@[simp] theorem State.respond_fs (r : Response) : (s.respond r).fs = s.fs := by simp [State.respond]
@[simp] theorem State.respond_coef (r : Response) : (s.respond r).coef = s.coef := by simp [State.respond]
@[simp] theorem State.respond_hist (r : Response) : (s.respond r).hist = s.hist := by simp [State.respond]
@[simp] theorem State.respond_mem (r : Response) : (s.respond r).mem = s.mem := by simp [State.respond]
@[simp] theorem State.respond_lent (r : Response) : (s.respond r).lent = s.lent := by simp [State.respond]
@[simp] theorem State.respond_serving (r : Response) : (s.respond r).serving = s.serving := by simp [State.respond]
@[simp] theorem State.respond_draws (r : Response) : (s.respond r).draws = s.draws := by simp [State.respond]
@[simp] theorem State.respond_schedule (r : Response) : (s.respond r).schedule = s.schedule := by simp [State.respond]
@[simp] theorem State.respond_picks (r : Response) : (s.respond r).picks = s.picks := by simp [State.respond]

/-! ### accept -/

@[simp] theorem State.accept_gain (p : PortId) (m : Message) : (s.accept p m).gain = s.gain := by simp [State.accept]
@[simp] theorem State.accept_en (p : PortId) (m : Message) : (s.accept p m).en = s.en := by simp [State.accept]
@[simp] theorem State.accept_initd (p : PortId) (m : Message) : (s.accept p m).initd = s.initd := by simp [State.accept]
@[simp] theorem State.accept_fs (p : PortId) (m : Message) : (s.accept p m).fs = s.fs := by simp [State.accept]
@[simp] theorem State.accept_coef (p : PortId) (m : Message) : (s.accept p m).coef = s.coef := by simp [State.accept]
@[simp] theorem State.accept_hist (p : PortId) (m : Message) : (s.accept p m).hist = s.hist := by simp [State.accept]
@[simp] theorem State.accept_mem (p : PortId) (m : Message) : (s.accept p m).mem = s.mem := by simp [State.accept]
@[simp] theorem State.accept_lent (p : PortId) (m : Message) : (s.accept p m).lent = s.lent := by simp [State.accept]
@[simp] theorem State.accept_draws (p : PortId) (m : Message) : (s.accept p m).draws = s.draws := by simp [State.accept]
@[simp] theorem State.accept_schedule (p : PortId) (m : Message) : (s.accept p m).schedule = s.schedule := by simp [State.accept]
@[simp] theorem State.accept_picks (p : PortId) (m : Message) : (s.accept p m).picks = s.picks := by simp [State.accept]

/-! ### tick -/

@[simp] theorem State.tick_gain : s.tick.gain = s.gain := rfl
@[simp] theorem State.tick_en : s.tick.en = s.en := rfl
@[simp] theorem State.tick_initd : s.tick.initd = s.initd := rfl
@[simp] theorem State.tick_fs : s.tick.fs = s.fs := rfl
@[simp] theorem State.tick_coef : s.tick.coef = s.coef := rfl
@[simp] theorem State.tick_hist : s.tick.hist = s.hist := rfl
@[simp] theorem State.tick_ctrl : s.tick.ctrl = s.ctrl := rfl
@[simp] theorem State.tick_audio : s.tick.audio = s.audio := rfl
@[simp] theorem State.tick_mem : s.tick.mem = s.mem := rfl
@[simp] theorem State.tick_lent : s.tick.lent = s.lent := rfl
@[simp] theorem State.tick_serving : s.tick.serving = s.serving := rfl
@[simp] theorem State.tick_draws : s.tick.draws = s.draws := rfl

/-! ### What each update writes -/

@[simp] theorem State.memWrite_mem (a : Nat) (v : Word) : (s.memWrite a v).mem = s.mem.writeWord a v := rfl
@[simp] theorem State.draw_draws (lo hi : F32) : (s.draw lo hi).2.draws = s.draws + 1 := rfl
@[simp] theorem State.accept_serving (p : PortId) (m : Message) : (s.accept p m).serving = p := rfl
@[simp] theorem State.tick_schedule : s.tick.schedule = s.schedule.tail := rfl
@[simp] theorem State.tick_picks : s.tick.picks = s.picks + 1 := rfl
@[simp] theorem State.tick_port (p : PortId) : s.tick.port p = s.port p := by cases p <;> rfl

@[simp] theorem State.port_setPort_same (p : PortId) (q : Port) : (s.setPort p q).port p = q := by cases p <;> rfl

theorem State.port_setPort_other {p p' : PortId} (h : p' ≠ p) (q : Port) : (s.setPort p q).port p' = s.port p' := by
  cases p <;> cases p' <;> first | rfl | exact absurd rfl h

@[simp] theorem State.port_respond_serving (r : Response) :
    (s.respond r).port s.serving = { s.port s.serving with state := .idle, undelivered := some r } := by
  simp [State.respond]

theorem State.port_respond_other {p : PortId} (h : p ≠ s.serving) (r : Response) :
    (s.respond r).port p = s.port p := by
  simp only [State.respond]; exact s.port_setPort_other h _

@[simp] theorem State.port_accept_same (p : PortId) (m : Message) :
    (s.accept p m).port p = { s.port p with state := .busy m, pending := none } := by
  cases p <;> rfl

theorem State.port_accept_other {p p' : PortId} (h : p' ≠ p) (m : Message) :
    (s.accept p m).port p' = s.port p' := by
  cases p <;> cases p' <;> first | rfl | exact absurd rfl h

/-! ### Register files -/

@[simp] theorem Stereo.get_set_same {α : Type} (x : Stereo α) (c : Channel) (v : α) : (x.set c v).get c = v := by
  cases c <;> rfl

theorem Stereo.get_set_other {α : Type} (x : Stereo α) {c c' : Channel} (h : c' ≠ c) (v : α) :
    (x.set c v).get c' = x.get c' := by
  cases c <;> cases c' <;> first | rfl | exact absurd rfl h

theorem Stereo.ext_get {α : Type} {x y : Stereo α} (h : ∀ c, x.get c = y.get c) : x = y := by
  cases x; cases y; exact congr (congrArg _ (h .ch0)) (h .ch1)

@[simp] theorem State.gainAt_setGain_same (b : Band) (v : F32) : (s.setGain b v).gainAt b = v := by
  simp [State.gainAt, State.setGain]

theorem State.gainAt_setGain_other {b b' : Band} (h : b' ≠ b) (v : F32) : (s.setGain b v).gainAt b' = s.gainAt b' := by
  have : b.val ≠ b'.val := fun e => h (Fin.ext e.symm)
  simp [State.gainAt, State.setGain, this]

@[simp] theorem State.coefAt_setCoef_same (b : Band) (c : Channel) (k : Coef) : (s.setCoef b k).coefAt b c = k := by
  cases c <;> simp [State.coefAt, State.setCoef, Stereo.get]

theorem State.coefAt_setCoef_other {b b' : Band} (h : b' ≠ b) (c : Channel) (k : Coef) :
    (s.setCoef b k).coefAt b' c = s.coefAt b' c := by
  have : b.val ≠ b'.val := fun e => h (Fin.ext e.symm)
  simp [State.coefAt, State.setCoef, this]

@[simp] theorem State.histAt_setHist_same (b : Band) (c : Channel) (h : Hist) : (s.setHist b c h).histAt b c = h := by
  simp [State.histAt, State.setHist]

theorem State.histAt_setHist_otherChannel (b b' : Band) {c c' : Channel} (h : c' ≠ c) (v : Hist) :
    (s.setHist b c v).histAt b' c' = s.histAt b' c' := by
  by_cases e : b.val = b'.val
  · simp [State.histAt, State.setHist, e, Stereo.get_set_other _ h]
  · simp [State.histAt, State.setHist, e]

theorem State.histAt_setHist_otherBand {b b' : Band} (h : b' ≠ b) (c c' : Channel) (v : Hist) :
    (s.setHist b c v).histAt b' c' = s.histAt b' c' := by
  have : b.val ≠ b'.val := fun e => h (Fin.ext e.symm)
  simp [State.histAt, State.setHist, this]

/-- The accessors read one field each. -/
theorem State.gainAt_congr {s t : State} (h : t.gain = s.gain) (b : Band) : t.gainAt b = s.gainAt b := by
  simp [State.gainAt, h]

theorem State.coefAt_congr {s t : State} (h : t.coef = s.coef) (b : Band) (c : Channel) : t.coefAt b c = s.coefAt b c := by
  simp [State.coefAt, h]

theorem State.histAt_congr {s t : State} (h : t.hist = s.hist) (b : Band) (c : Channel) : t.histAt b c = s.histAt b c := by
  simp [State.histAt, h]

theorem State.memRead_congr {s t : State} (h : t.mem = s.mem) (a : Nat) : t.memRead a = s.memRead a := by
  simp [State.memRead, h]

theorem State.rate_congr {s t : State} (h : t.fs = s.fs) : t.rate = s.rate := by simp [State.rate, h]

end Sys2Proof.Machine
end

