-- ==== Sys2Proof/Laws/Memory.lean ====
section
/-! SUPPORT. The sample memory: every operation keeps the canonical form, a read after a write gives what was written,
and a write leaves every other byte alone. -/

namespace Sys2Proof.Machine

/-- Every listed address is above `lo`. -/
def Memory.above (lo : Nat) (m : Memory) : Prop := ∀ c ∈ m, lo < c.1

@[simp] theorem Memory.wf_nil : Memory.wf [] = true := rfl

/-- The canonical form, one cell at a time. -/
theorem Memory.wf_cons {k : Nat} {v : Byte} {m : Memory} :
    Memory.wf ((k, v) :: m) = true ↔ v ≠ Memory.unlisted ∧ Memory.above k m ∧ Memory.wf m = true := by
  induction m generalizing k v with
  | nil => simp [Memory.wf, Memory.above]
  | cons c rest ih =>
    obtain ⟨k', v'⟩ := c
    have ih' := @ih k' v'
    simp only [Memory.wf, Bool.and_eq_true, bne_iff_ne, decide_eq_true_eq]
    constructor
    · rintro ⟨⟨hv, hk⟩, hw⟩
      refine ⟨hv, ?_, hw⟩
      intro c hc
      rcases List.mem_cons.1 hc with rfl | hc
      · exact hk
      · exact lt_trans hk ((ih'.1 hw).2.1 c hc)
    · rintro ⟨hv, ha, hw⟩
      exact ⟨⟨hv, ha _ (List.mem_cons_self ..)⟩, hw⟩

theorem Memory.above_write {lo : Nat} {m : Memory} (h : Memory.above lo m) {a : Nat} (ha : lo < a) (v : Byte) :
    Memory.above lo (m.write a v) := by
  induction m with
  | nil =>
    intro c hc
    unfold Memory.write at hc
    split at hc <;> simp_all
  | cons c rest ih =>
    obtain ⟨k, w⟩ := c
    have hk : lo < k := h _ (List.mem_cons_self ..)
    have hr : Memory.above lo rest := fun c hc => h c (List.mem_cons_of_mem _ hc)
    intro c hc
    unfold Memory.write at hc
    split at hc
    · split at hc
      · exact h c hc
      · rcases List.mem_cons.1 hc with rfl | hc
        · exact ha
        · exact h c hc
    · split at hc
      · split at hc
        · exact hr c hc
        · rcases List.mem_cons.1 hc with rfl | hc
          · exact ha
          · exact hr c hc
      · rcases List.mem_cons.1 hc with rfl | hc
        · exact hk
        · exact ih hr c hc

/-- A byte write keeps the canonical form. -/
theorem Memory.wf_write {m : Memory} (h : m.wf = true) (a : Nat) (v : Byte) : (m.write a v).wf = true := by
  induction m with
  | nil => unfold Memory.write; split <;> simp_all [Memory.wf]
  | cons c rest ih =>
    obtain ⟨k, w⟩ := c
    obtain ⟨hw, ha, hr⟩ := Memory.wf_cons.1 h
    unfold Memory.write
    split
    · rename_i hlt
      split
      · exact h
      · rename_i hv
        refine Memory.wf_cons.2 ⟨hv, ?_, h⟩
        intro c hc
        rcases List.mem_cons.1 hc with rfl | hc
        · exact hlt
        · exact lt_trans hlt (ha c hc)
    · split
      · rename_i _ heq
        subst heq
        split
        · exact hr
        · rename_i hv; exact Memory.wf_cons.2 ⟨hv, ha, hr⟩
      · rename_i h1 h2
        exact Memory.wf_cons.2 ⟨hw, Memory.above_write ha (by omega) v, ih hr⟩

/-- A byte write inside the address space keeps every listed byte inside it. -/
theorem Memory.inSpace_write {m : Memory} (h : m.inSpace = true) {a : Nat} (ha : a < 2 ^ 34) (v : Byte) :
    (m.write a v).inSpace = true := by
  unfold Memory.inSpace at h ⊢
  rw [List.all_eq_true] at h ⊢
  induction m with
  | nil =>
    intro c hc
    unfold Memory.write at hc
    split at hc <;> simp_all
  | cons c rest ih =>
    obtain ⟨k, w⟩ := c
    intro c hc
    unfold Memory.write at hc
    split at hc
    · split at hc
      · exact h c hc
      · rcases List.mem_cons.1 hc with rfl | hc
        · simpa using ha
        · exact h c hc
    · split at hc
      · split at hc
        · exact h c (List.mem_cons_of_mem _ hc)
        · rcases List.mem_cons.1 hc with rfl | hc
          · simpa using ha
          · exact h c (List.mem_cons_of_mem _ hc)
      · rcases List.mem_cons.1 hc with rfl | hc
        · exact h _ (List.mem_cons_self ..)
        · exact ih (fun c hc => h c (List.mem_cons_of_mem _ hc)) c hc

theorem Memory.read_of_above {m : Memory} {a lo : Nat} (h : Memory.above lo m) (ha : a ≤ lo) :
    m.read a = Memory.unlisted := by
  induction m with
  | nil => rfl
  | cons c rest ih =>
    obtain ⟨k, w⟩ := c
    have hk : lo < k := h _ (List.mem_cons_self ..)
    have : ¬ k = a := by omega
    simp only [Memory.read, if_neg this]
    exact ih (fun c hc => h c (List.mem_cons_of_mem _ hc))

/-- A read after a write to the same byte gives what was written. -/
theorem Memory.read_write_same {m : Memory} (h : m.wf = true) (a : Nat) (v : Byte) : (m.write a v).read a = v := by
  induction m with
  | nil => unfold Memory.write; split <;> simp_all [Memory.read]
  | cons c rest ih =>
    obtain ⟨k, w⟩ := c
    obtain ⟨hw, ha, hr⟩ := Memory.wf_cons.1 h
    unfold Memory.write
    split
    · rename_i hlt
      split
      · rename_i hv
        have hk : ¬ k = a := by omega
        simp only [Memory.read, if_neg hk]
        rw [Memory.read_of_above ha (by omega), hv]
      · simp [Memory.read]
    · split
      · rename_i _ heq
        subst heq
        split
        · rename_i hv; rw [Memory.read_of_above ha le_rfl, hv]
        · simp [Memory.read]
      · rename_i h1 h2
        have hk : ¬ k = a := fun e => h2 e.symm
        simp only [Memory.read, if_neg hk]
        exact ih hr

/-- A write leaves every other byte alone. -/
theorem Memory.read_write_other {m : Memory} {a a' : Nat} (h : a' ≠ a) (v : Byte) : (m.write a v).read a' = m.read a' := by
  induction m with
  | nil => unfold Memory.write; split <;> simp [Memory.read, Ne.symm h]
  | cons c rest ih =>
    obtain ⟨k, w⟩ := c
    unfold Memory.write
    split
    · split <;> simp [Memory.read, Ne.symm h]
    · split
      · rename_i _ heq
        subst heq
        split <;> simp [Memory.read, Ne.symm h]
      · simp only [Memory.read, ih]

/-- Two canonical memories that read alike everywhere are equal. -/
theorem Memory.ext_read {m m' : Memory} (h : m.wf = true) (h' : m'.wf = true) (hr : ∀ a, m.read a = m'.read a) :
    m = m' := by
  induction m generalizing m' with
  | nil =>
    cases m' with
    | nil => rfl
    | cons c rest =>
      obtain ⟨k, w⟩ := c
      obtain ⟨hw, -, -⟩ := Memory.wf_cons.1 h'
      have := hr k
      simp only [Memory.read, if_true] at this
      exact absurd this.symm hw
  | cons c rest ih =>
    obtain ⟨k, w⟩ := c
    obtain ⟨hw, ha, hrest⟩ := Memory.wf_cons.1 h
    cases m' with
    | nil =>
      have := hr k
      simp only [Memory.read, if_true] at this
      exact absurd this hw
    | cons c' rest' =>
      obtain ⟨k', w'⟩ := c'
      obtain ⟨hw', ha', hrest'⟩ := Memory.wf_cons.1 h'
      have hkk : k = k' := by
        rcases Nat.lt_trichotomy k k' with hlt | heq | hgt
        · exfalso
          have e := hr k
          simp only [Memory.read, if_true, if_neg (show ¬ k' = k by omega)] at e
          rw [Memory.read_of_above ha' (by omega)] at e
          exact hw e
        · exact heq
        · exfalso
          have e := hr k'
          simp only [Memory.read, if_true, if_neg (show ¬ k = k' by omega)] at e
          rw [Memory.read_of_above ha (by omega)] at e
          exact hw' e.symm
      subst hkk
      have hww : w = w' := by simpa [Memory.read] using hr k
      subst hww
      congr 1
      refine ih hrest hrest' (fun a => ?_)
      by_cases e : k = a
      · subst e; rw [Memory.read_of_above ha le_rfl, Memory.read_of_above ha' le_rfl]
      · simpa [Memory.read, e] using hr a

/-- A word write keeps the canonical form. -/
theorem Memory.wf_writeWord {m : Memory} (h : m.wf = true) (a : Nat) (v : Word) : (m.writeWord a v).wf = true := by
  unfold Memory.writeWord
  exact Memory.wf_write (Memory.wf_write (Memory.wf_write (Memory.wf_write h _ _) _ _) _ _) _ _

/-- A word write to an existing word keeps every listed byte inside the address space. -/
theorem Memory.inSpace_writeWord {m : Memory} (h : m.inSpace = true) {a : Nat} (ha : a < 2 ^ 32) (v : Word) :
    (m.writeWord a v).inSpace = true := by
  unfold Memory.writeWord
  exact Memory.inSpace_write (Memory.inSpace_write (Memory.inSpace_write (Memory.inSpace_write h (by omega) _)
    (by omega) _) (by omega) _) (by omega) _

/-- A word write leaves the bytes of every other word alone. -/
theorem Memory.read_writeWord_other {m : Memory} {a x : Nat} (h : x / 4 ≠ a) (v : Word) :
    (m.writeWord a v).read x = m.read x := by
  unfold Memory.writeWord
  rw [Memory.read_write_other (by omega), Memory.read_write_other (by omega), Memory.read_write_other (by omega),
    Memory.read_write_other (by omega)]

/-- The memory of the reset state is canonical and inside the address space. -/
theorem State.reset_mem_sound : State.reset.mem.wf = true ∧ State.reset.mem.inSpace = true := ⟨rfl, rfl⟩

end Sys2Proof.Machine
end

