-- ==== Sys2Proof/Laws/Ops.lean ====
section
/-! SUPPORT. One lemma per shared operation that says what it does and what it leaves alone: the folds over the bands, the
clamp, the limiter, the chain and the sample loop of PROCESS. -/

namespace Sys2Proof.Machine

/-! ### Folds -/

/-- What every step of a fold keeps, the fold keeps. -/
theorem foldl_keeps {α β : Type} (P : β → Prop) (f : β → α → β) (h : ∀ s x, P s → P (f s x)) (l : List α) :
    ∀ s, P s → P (l.foldl f s) := by
  induction l with
  | nil => exact fun s hs => hs
  | cons x l ih => exact fun s hs => ih _ (h s x hs)

/-- What every step of a fold with an element of the list keeps, the fold keeps. -/
theorem foldl_keeps_mem {α β : Type} (P : β → Prop) (f : β → α → β) (l : List α) :
    (∀ x ∈ l, ∀ s, P s → P (f s x)) → ∀ s, P s → P (l.foldl f s) := by
  induction l with
  | nil => exact fun _ s hs => hs
  | cons x l ih =>
    exact fun h s hs => ih (fun y hy => h y (List.mem_cons_of_mem _ hy)) _ (h x (List.mem_cons_self ..) s hs)

@[simp] theorem mem_allBands (b : Band) : b ∈ allBands := by revert b; decide

/-- Register files are equal when every register is. -/
theorem State.gain_ext {s t : State} (h : ∀ b, s.gainAt b = t.gainAt b) : s.gain = t.gain :=
  Vector.ext fun i hi => h ⟨i, hi⟩

theorem State.coef_ext {s t : State} (h : ∀ b c, s.coefAt b c = t.coefAt b c) : s.coef = t.coef :=
  Vector.ext fun i hi => Stereo.ext_get fun c => h ⟨i, hi⟩ c

theorem State.hist_ext {s t : State} (h : ∀ b c, s.histAt b c = t.histAt b c) : s.hist = t.hist :=
  Vector.ext fun i hi => Stereo.ext_get fun c => h ⟨i, hi⟩ c

/-! ### TUNE -/

/-- A fold of `TUNE` changes the coefficients and nothing else. -/
theorem State.foldl_tune_eq (s : State) (l : List Band) :
    l.foldl State.tune s = { s with coef := (l.foldl State.tune s).coef } := by
  refine foldl_keeps (fun t => t = { s with coef := t.coef }) State.tune ?_ l s rfl
  intro t b ht
  rw [ht]; rfl

/-- `for b in 0 .. 8: TUNE(b)` changes the coefficients and nothing else (R88). -/
theorem State.tuneAll_eq (s : State) : s.tuneAll = { s with coef := s.tuneAll.coef } :=
  s.foldl_tune_eq allBands

theorem State.coefAt_tune (s : State) (b b' : Band) (c : Channel) :
    (s.tune b).coefAt b' c = if b' = b then bandCoef b s.rate (s.gainAt b) else s.coefAt b' c := by
  unfold State.tune
  split
  · rename_i h; subst h; exact s.coefAt_setCoef_same _ _ _
  · rename_i h; exact s.coefAt_setCoef_other h _ _

/-- A fold of `TUNE` writes, for every band of the list, the set computed from its gain and the rate. -/
theorem State.coefAt_foldl_tune (l : List Band) (s : State) (b : Band) (c : Channel) :
    (l.foldl State.tune s).coefAt b c = if b ∈ l then bandCoef b s.rate (s.gainAt b) else s.coefAt b c := by
  induction l generalizing s with
  | nil => simp
  | cons x l ih =>
    rw [List.foldl_cons, ih]
    have hr : (s.tune x).rate = s.rate := rfl
    have hg : (s.tune x).gainAt b = s.gainAt b := rfl
    rw [hr, hg, s.coefAt_tune]
    by_cases hb : b ∈ l
    · simp [hb]
    · by_cases hx : b = x
      · subst hx; simp [hb]
      · simp [hb, hx]

theorem State.coefAt_tuneAll (s : State) (b : Band) (c : Channel) :
    s.tuneAll.coefAt b c = bandCoef b s.rate (s.gainAt b) := by
  unfold State.tuneAll; rw [State.coefAt_foldl_tune]; simp

/-! ### Gains and histories at zero -/

theorem State.foldl_zeroGain_eq (s : State) (l : List Band) :
    l.foldl (fun t b => t.setGain b f0) s = { s with gain := (l.foldl (fun t b => t.setGain b f0) s).gain } := by
  refine foldl_keeps (fun t => t = { s with gain := t.gain }) _ ?_ l s rfl
  intro t b ht
  rw [ht]; rfl

theorem State.zeroGains_eq (s : State) : s.zeroGains = { s with gain := s.zeroGains.gain } :=
  s.foldl_zeroGain_eq allBands

theorem State.gainAt_foldl_zeroGain (l : List Band) (s : State) (b : Band) :
    (l.foldl (fun t b => t.setGain b f0) s).gainAt b = if b ∈ l then f0 else s.gainAt b := by
  induction l generalizing s with
  | nil => simp
  | cons x l ih =>
    rw [List.foldl_cons, ih]
    by_cases hb : b ∈ l
    · simp [hb]
    · by_cases hx : b = x
      · subst hx; simp [hb]
      · simp [hb, hx, s.gainAt_setGain_other hx]

theorem State.gainAt_zeroGains (s : State) (b : Band) : s.zeroGains.gainAt b = f0 := by
  unfold State.zeroGains; rw [State.gainAt_foldl_zeroGain]; simp

/-- The history clearing changes the histories and nothing else. -/
theorem State.clearHist_eq (s : State) : s.clearHist = { s with hist := s.clearHist.hist } := by
  refine foldl_keeps (fun t => t = { s with hist := t.hist }) _ ?_ allBands s rfl
  intro t b ht
  rw [ht]; rfl

theorem State.histAt_stageReset (s : State) (b b' : Band) (c c' : Channel) :
    (s.stageReset b c).histAt b' c' = if b' = b ∧ c' = c then Hist.zero else s.histAt b' c' := by
  unfold State.stageReset
  by_cases hb : b' = b
  · by_cases hc : c' = c
    · subst hb; subst hc; simp
    · simp [hc, s.histAt_setHist_otherChannel b b' hc]
  · simp [hb, s.histAt_setHist_otherBand hb]

theorem State.histAt_foldl_clear (l : List Band) (s : State) (b : Band) (c : Channel) :
    (l.foldl (fun t b => (t.stageReset b .ch0).stageReset b .ch1) s).histAt b c
      = if b ∈ l then Hist.zero else s.histAt b c := by
  induction l generalizing s with
  | nil => simp
  | cons x l ih =>
    rw [List.foldl_cons, ih]
    by_cases hb : b ∈ l
    · simp [hb]
    · by_cases hx : b = x
      · subst hx; cases c <;> simp [hb, State.histAt_stageReset]
      · simp [hb, hx, State.histAt_stageReset]

theorem State.histAt_clearHist (s : State) (b : Band) (c : Channel) : s.clearHist.histAt b c = Hist.zero := by
  unfold State.clearHist; rw [State.histAt_foldl_clear]; simp

/-! ### Draws, clamp, limiter -/

/-- A draw changes the draw counter and nothing else. -/
theorem State.draw_eq (s : State) (lo hi : F32) : (s.draw lo hi).2 = { s with draws := s.draws + 1 } := rfl

/-- A drawn value lies in its range, when +0.0 does (R101, R124). -/
theorem State.draw_inRange (s : State) {lo hi : F32} (h : inRange lo hi f0 = true) :
    inRange lo hi (s.draw lo hi).1 = true := by
  unfold State.draw
  dsimp only
  split
  · assumption
  · exact h

/-- The clamp changes at most the draw counter. -/
theorem State.clamp_eq (s : State) (g : F32) : (s.clamp g).2 = { s with draws := (s.clamp g).2.draws } := by
  unfold State.clamp; split <;> rfl

/-- The limiter changes at most the draw counter. -/
theorem State.clip_eq (s : State) (y : F32) : (s.clip y).2 = { s with draws := (s.clip y).2.draws } := by
  unfold State.clip; split <;> rfl

/-! ### CHAIN and PROCESS -/

/-- The chain changes the histories and nothing else (R123, R126). -/
theorem State.chain_eq (s : State) (c : Channel) (x : F32) :
    (s.chain c x).2 = { s with hist := (s.chain c x).2.hist } := by
  refine foldl_keeps (fun p : F32 × State => p.2 = { s with hist := p.2.hist })
    (fun p b => p.2.stageProcess b c p.1) ?_ allBands (x, s) rfl
  intro p b hp
  simp only [State.stageProcess]
  rw [hp]; rfl

/-- The chain of a channel leaves the histories of the other channel alone (R125). -/
theorem State.chain_histAt_other (s : State) {c c' : Channel} (h : c' ≠ c) (x : F32) (b : Band) :
    (s.chain c x).2.histAt b c' = s.histAt b c' := by
  refine foldl_keeps (fun p : F32 × State => p.2.histAt b c' = s.histAt b c')
    (fun p b => p.2.stageProcess b c p.1) ?_ allBands (x, s) rfl
  intro p b' hp
  simp only [State.stageProcess]
  rw [State.histAt_setHist_otherChannel _ _ _ h]; exact hp

/-- What `PROCESS` may change: histories, memory and the draw counter. -/
def State.SameButAudio (s t : State) : Prop := t = { s with hist := t.hist, mem := t.mem, draws := t.draws }

theorem State.SameButAudio.refl (s : State) : s.SameButAudio s := rfl

theorem State.SameButAudio.trans {s t u : State} (h : s.SameButAudio t) (h' : t.SameButAudio u) : s.SameButAudio u := by
  unfold State.SameButAudio at *
  rw [h'] ; rw [h]

theorem State.processSample_same (s : State) (base nchan f : Nat) (c : Channel) :
    s.SameButAudio (s.processSample base nchan f c) := by
  unfold State.SameButAudio State.processSample
  dsimp only [State.memWrite]
  rw [State.clip_eq, State.chain_eq]

theorem State.processFrame_same (s : State) (base nchan f : Nat) : s.SameButAudio (s.processFrame base nchan f) := by
  unfold State.processFrame
  exact foldl_keeps (fun t => s.SameButAudio t) _ (fun t c ht => ht.trans (t.processSample_same base nchan f c)) _ s
    (State.SameButAudio.refl s)

/-- The sample loop changes histories, memory and the draw counter and nothing else (R120). -/
theorem State.processFrames_same (base nchan count f : Nat) (s : State) :
    s.SameButAudio (State.processFrames base nchan count f s) := by
  induction count generalizing f s with
  | zero => exact State.SameButAudio.refl s
  | succ n ih => exact (s.processFrame_same base nchan f).trans (ih _ _)

/-- The memory after one processed sample: one word written. -/
theorem State.processSample_mem (s : State) (base nchan f : Nat) (c : Channel) :
    ∃ v, (s.processSample base nchan f c).mem = s.mem.writeWord (sampleAddr base f c nchan) v := by
  refine ⟨((s.chain c (s.memRead (sampleAddr base f c nchan))).2.clip
    (s.chain c (s.memRead (sampleAddr base f c nchan))).1).1, ?_⟩
  unfold State.processSample
  dsimp only [State.memWrite]
  rw [State.clip_eq, State.chain_eq]

/-- A processed channel's number is below the channel count (R41, R122). -/
theorem index_lt_of_mem_processed {c : Channel} {nchan : Nat} (h : c ∈ processedChannels nchan) : c.index < nchan := by
  unfold processedChannels at h
  match nchan, h with
  | 0, h => simp at h
  | 1, h => simp at h; subst h; decide
  | n + 2, h => cases c <;> simp [Channel.index]

/-- A sample word of frame `f` lies inside the declared region (R41). -/
theorem sampleAddr_lt {base n nchan f : Nat} {c : Channel} (hf : f < n) (hc : c ∈ processedChannels nchan) :
    sampleAddr base f c nchan < base + n * nchan := by
  have h1 := index_lt_of_mem_processed hc
  have h2 : (f + 1) * nchan ≤ n * nchan := Nat.mul_le_mul_right _ hf
  rw [Nat.add_mul] at h2
  unfold sampleAddr
  omega

/-- An admitted region lies inside the sample memory (R47). -/
theorem State.bufOk_le {s : State} {base n : Nat} (h : s.bufOk base n = true) : base + n ≤ 2 ^ 32 := by
  unfold State.bufOk at h
  exact of_decide_eq_true (Bool.and_eq_true_iff.1 h).1

/-- The three outcomes of `PROCESS`, in the order of R145: inactive, out of range, performed. -/
theorem execProcess_cases (base nframes nchan : Word) (s : State) :
    (s.active = false ∧ execProcess base nframes nchan s = .next (s.respond (Response.done 0#32))) ∨
    (s.active = true ∧ 0 < nframes.toNat * nchan.toNat ∧ s.bufOk base.toNat (nframes.toNat * nchan.toNat) = false ∧
      execProcess base nframes nchan s = .fault (.bufferRange base nframes nchan)) ∨
    (s.active = true ∧ (0 < nframes.toNat * nchan.toNat → s.bufOk base.toNat (nframes.toNat * nchan.toNat) = true) ∧
      execProcess base nframes nchan s =
        .next ((State.processFrames base.toNat nchan.toNat nframes.toNat 0 s).respond (Response.done 0#32))) := by
  unfold execProcess
  generalize nframes.toNat * nchan.toNat = n
  cases ha : s.active with
  | false => exact Or.inl ⟨rfl, if_neg (by decide)⟩
  | true =>
    right
    rw [if_pos rfl]
    cases hb : s.bufOk base.toNat n with
    | true => exact Or.inr ⟨rfl, fun _ => rfl, if_neg (by simp)⟩
    | false =>
      by_cases hn : 0 < n
      · exact Or.inl ⟨rfl, hn, rfl, if_pos (by simp [hn])⟩
      · exact Or.inr ⟨rfl, fun h => absurd h hn, if_neg (by simp [hn])⟩

end Sys2Proof.Machine
end

