-- ==== Sys2Proof/Laws/PerInstr.lean ====
section
/-! SUPPORT. A statement about every command as syntax, one lemma per constructor: its encoding is a well-formed message,
with the opcode and the operand count of its row (30_encoding.md R61 to R63). -/

namespace Sys2Proof.Laws.EncodeWellFormed

@[reducible] def Statement (i : Instr) : Prop := (encode i).wellFormed = true

theorem init (fs : F32) : Statement (.init fs) := (by decide : Statement (.init 0#32))

theorem setgain (b : BitVec 4) (g : F32) : Statement (.setgain b g) :=
  (by decide : ∀ b : BitVec 4, Statement (.setgain b 0#32)) b

theorem getgain (b : BitVec 4) : Statement (.getgain b) := (by decide : ∀ b : BitVec 4, Statement (.getgain b)) b

theorem seten (e : Bool) : Statement (.seten e) := by cases e <;> decide

theorem geten : Statement .geten := by decide

theorem reset : Statement .reset := by decide

theorem process (base nframes nchan : Word) : Statement (.process base nframes nchan) :=
  (by decide : Statement (.process 0#32 0#32 0#32))

end Sys2Proof.Laws.EncodeWellFormed
end

