-- ==== Sys2Proof/Laws/Step.lean ====
section
/-! SUPPORT. What a command, a message, a choice and a step can do, each said once (60_exceptions.md R148). -/

namespace Sys2Proof.Machine

/-- Recording a response is all `respond` does (R13, R148). -/
theorem State.respond_answered (s : State) (r : Response) : s.Answered (s.respond r) r :=
  ⟨s.port_respond_serving r, fun _ hp => s.port_respond_other hp r⟩

/-- `t` differs from `s` in registers, memory and draws at most: ports, agents, launch and choice are the same. -/
def State.HostSame (s t : State) : Prop := t.ctrl = s.ctrl ∧ t.audio = s.audio ∧ s.LaunchSame t

theorem State.HostSame.refl (s : State) : s.HostSame s := ⟨rfl, rfl, rfl, rfl, rfl, rfl⟩

theorem State.HostSame.trans {s t u : State} (h : s.HostSame t) (h' : t.HostSame u) : s.HostSame u := by
  obtain ⟨a, b, c, d, e, f⟩ := h
  obtain ⟨a', b', c', d', e', f'⟩ := h'
  exact ⟨a'.trans a, b'.trans b, c'.trans c, d'.trans d, e'.trans e, f'.trans f⟩

theorem State.HostSame.port {s t : State} (h : s.HostSame t) (p : PortId) : t.port p = s.port p := by
  cases p
  · exact h.1
  · exact h.2.1

theorem State.SameButAudio.host {s t : State} (h : s.SameButAudio t) : s.HostSame t := by
  unfold State.SameButAudio at h
  rw [h]; exact ⟨rfl, rfl, rfl, rfl, rfl, rfl⟩

theorem State.whenInit_cases (s : State) (f : State → State) (P : State → Prop) (h1 : s.initd = true → P (f s))
    (h2 : s.initd = false → P s) : P (s.whenInit f) := by
  unfold State.whenInit
  cases h : s.initd
  · simpa [h] using h2 h
  · simpa [h] using h1 h

theorem State.tuneAll_host (s : State) : s.HostSame s.tuneAll := by
  rw [State.tuneAll_eq]; exact ⟨rfl, rfl, rfl, rfl, rfl, rfl⟩

theorem State.tune_host (s : State) (b : Band) : s.HostSame (s.tune b) := ⟨rfl, rfl, rfl, rfl, rfl, rfl⟩

theorem State.clamp_host (s : State) (g : F32) : s.HostSame (s.clamp g).2 := by
  rw [State.clamp_eq]; exact ⟨rfl, rfl, rfl, rfl, rfl, rfl⟩

/-- Every command that completes ends by recording its response, on a state whose ports the command itself has not
touched (R69, R148). -/
theorem exec_next_respond {i : Instr} {s t : State} (h : exec i s = .next t) :
    ∃ u w, t = u.respond ⟨w, .ok⟩ ∧ s.HostSame u := by
  cases i with
  | init fs =>
    simp only [exec, execInit, Host.Outcome.next.injEq] at h
    exact ⟨_, _, h.symm, State.HostSame.trans (t := { s with fs := some fs, initd := true })
      ⟨rfl, rfl, rfl, rfl, rfl, rfl⟩ (State.tuneAll_host _)⟩
  | setgain b g =>
    simp only [exec, execSetgain] at h
    split at h
    · exact ⟨_, _, (Host.Outcome.next.inj h).symm, State.HostSame.refl s⟩
    · rename_i k _
      refine ⟨_, _, (Host.Outcome.next.inj h).symm, (s.clamp_host g).trans ?_⟩
      have h0 : (s.clamp g).2.HostSame ((s.clamp g).2.setGain k (s.clamp g).1) := ⟨rfl, rfl, rfl, rfl, rfl, rfl⟩
      exact State.whenInit_cases _ _ _ (fun _ => h0.trans (State.tune_host _ k)) (fun _ => h0)
  | getgain b =>
    simp only [exec, execGetgain] at h
    split at h <;> exact ⟨_, _, (Host.Outcome.next.inj h).symm, State.HostSame.refl s⟩
  | seten e => exact ⟨_, _, (Host.Outcome.next.inj h).symm, ⟨rfl, rfl, rfl, rfl, rfl, rfl⟩⟩
  | geten => exact ⟨_, _, (Host.Outcome.next.inj h).symm, State.HostSame.refl s⟩
  | reset =>
    refine ⟨_, _, (Host.Outcome.next.inj h).symm, ?_⟩
    have h0 : s.HostSame s.zeroGains := by rw [State.zeroGains_eq]; exact ⟨rfl, rfl, rfl, rfl, rfl, rfl⟩
    refine State.HostSame.trans (t := s.zeroGains.whenInit State.tuneAll) ?_ ?_
    · exact State.whenInit_cases _ _ _ (fun _ => h0.trans (State.tuneAll_host _)) (fun _ => h0)
    · rw [State.clearHist_eq]; exact ⟨rfl, rfl, rfl, rfl, rfl, rfl⟩
  | process base nframes nchan =>
    simp only [exec, execProcess] at h
    split at h
    · split at h
      · cases h
      · exact ⟨_, _, (Host.Outcome.next.inj h).symm, (State.processFrames_same _ _ _ _ s).host⟩
    · exact ⟨_, _, (Host.Outcome.next.inj h).symm, State.HostSame.refl s⟩

/-- A message that completes is a command's effect or the `ILLEGAL` response, on the state whose port is busy with it. -/
theorem performMessage_cases {p : PortId} {m : Message} {s t : State} (h : performMessage p m s = .next t) :
    (∃ i, decode m = .ok i ∧ exec i (s.accept p m) = .next t) ∨
    (∃ e, decode m = .error e ∧ t = (s.accept p m).respond Response.illegal) := by
  unfold performMessage at h
  split at h
  · rename_i i hi; exact Or.inl ⟨i, hi, h⟩
  · rename_i e he; exact Or.inr ⟨e, he, (Host.Outcome.next.inj h).symm⟩

@[simp] theorem mem_allMoves (mv : Move) : mv ∈ allMoves := by
  cases mv <;> rename_i p <;> cases p <;> decide

theorem State.mem_enabledMoves (s : State) (mv : Move) : mv ∈ s.enabledMoves ↔ s.enabled mv = true := by
  simp [State.enabledMoves, List.mem_filter]

/-- The chosen move can happen. -/
theorem State.chooseMove_enabled {s : State} {mv : Move} (h : s.chooseMove = some mv) : s.enabled mv = true := by
  rw [← s.mem_enabledMoves]
  unfold State.chooseMove at h
  split at h
  · cases h
  · rename_i m e
    rw [e]; simp at h; simp [h]
  · rename_i m m' ms e
    rw [e]
    split at h
    · exact List.mem_of_getElem? h
    · split at h
      · rename_i hm; simp at h; rw [← h]; exact hm
      · exact List.mem_of_getElem? h

/-- No move is chosen only when none can happen. -/
theorem State.chooseMove_none {s : State} (h : s.chooseMove = none) (mv : Move) : s.enabled mv = false := by
  have key : s.enabledMoves = [] := by
    unfold State.chooseMove at h
    split at h
    · assumption
    · cases h
    · rename_i m m' ms e
      exfalso
      have hf : s.freeMove (m :: m' :: ms) ≠ none := by
        unfold State.freeMove
        rw [Ne, List.getElem?_eq_none_iff, not_le]
        exact Nat.mod_lt _ (by simp)
      split at h
      · exact hf h
      · split at h
        · cases h
        · exact hf h
  cases hm : s.enabled mv with
  | false => rfl
  | true => have := (s.mem_enabledMoves mv).2 hm; rw [key] at this; cases this

/-- A step waits, or makes a move that can happen. -/
theorem step_cases {s t : State} (h : step s = .next t) :
    (s.chooseMove = none ∧ t = s) ∨
    (∃ p m rest, s.chooseMove = some (.send p) ∧ (s.port p).free = true ∧ (s.port p).toSend = m :: rest ∧
      t = s.tick.setPort p { s.port p with pending := some m, toSend := rest }) ∨
    (∃ p r, s.chooseMove = some (.take p) ∧ (s.port p).undelivered = some r ∧
      t = s.tick.setPort p { s.port p with undelivered := none, received := (s.port p).received ++ [r] }) ∨
    (∃ p m, s.chooseMove = some (.perform p) ∧ (s.port p).pending = some m ∧ performMessage p m s.tick = .next t) := by
  unfold step at h
  cases hc : s.chooseMove with
  | none => rw [hc] at h; exact Or.inl ⟨rfl, (Host.Outcome.next.inj h).symm⟩
  | some mv =>
    rw [hc] at h
    have hen := State.chooseMove_enabled hc
    cases mv with
    | send p =>
      refine Or.inr (Or.inl ?_)
      simp only [State.enabled, Bool.and_eq_true, Bool.not_eq_true'] at hen
      cases hs : (s.port p).toSend with
      | nil => rw [hs] at hen; simp at hen
      | cons m rest =>
        refine ⟨p, m, rest, rfl, hen.1, hs, ?_⟩
        simp only [doMove, State.sendNext, State.tick_port, hs, Host.Outcome.next.injEq] at h
        exact h.symm
    | take p =>
      refine Or.inr (Or.inr (Or.inl ?_))
      cases hu : (s.port p).undelivered with
      | none => simp [State.enabled, hu] at hen
      | some r =>
        refine ⟨p, r, rfl, hu, ?_⟩
        simp only [doMove, State.takeResponse, State.tick_port, hu, Host.Outcome.next.injEq] at h
        exact h.symm
    | perform p =>
      refine Or.inr (Or.inr (Or.inr ?_))
      cases hp : (s.port p).pending with
      | none => simp [State.enabled, hp] at hen
      | some m =>
        refine ⟨p, m, rfl, hp, ?_⟩
        simpa only [doMove, State.tick_port, hp] using h

end Sys2Proof.Machine
end

