-- ==== Sys2Proof/Tests/Slice0.lean ====
section
/-! SUPPORT. The author's own tests. Every expected value is the spec's: the vectors of 95_test_vectors.md by their names,
or the layout of 30_encoding.md written out bit by bit. Witnesses show that the hypotheses of the statements can be met
together. -/

namespace Sys2Proof.Tests

open Sys2Proof.Machine

/-! ### Well-formed messages: one ill-formed term for each check -/

theorem test_wf_accepts_init : (Message.mk 0x10000000#32 [0x472C4400#32]).wellFormed = true := by decide
theorem test_wf_refuses_reserved_opcode : (Message.mk 0x80000000#32 [1#32]).opcodeAssigned = false ∧
    (Message.mk 0x80000000#32 [1#32]).wellFormed = false := by decide
theorem test_wf_refuses_reserved_bit : (Message.mk 0x40000003#32 []).reservedClear = false ∧
    (Message.mk 0x41000001#32 []).reservedClear = false ∧ (Message.mk 0x50000001#32 []).reservedClear = false ∧
    (Message.mk 0x40000003#32 []).wellFormed = false := by decide
theorem test_wf_refuses_operand_count : (Message.mk 0x30000000#32 [0#32]).countFits = false ∧
    (Message.mk 0x30000000#32 [0#32]).wellFormed = false := by decide

/-! ### Decoding: words written out from R61 and R62, field by field (OP BAND RSV E) -/

theorem test_decode_init : decode ⟨0b0001_0000_00000000000000000000000_0#32, [0x472C4400#32]⟩
    = .ok (.init 0x472C4400#32) := by decide
theorem test_decode_setgain : decode ⟨0b0010_1000_00000000000000000000000_0#32, [0x41200000#32]⟩
    = .ok (.setgain 8#4 0x41200000#32) := by decide
theorem test_decode_getgain : decode ⟨0b0011_1001_00000000000000000000000_0#32, []⟩ = .ok (.getgain 9#4) := by decide
theorem test_decode_seten : decode ⟨0b0100_0000_00000000000000000000000_1#32, []⟩ = .ok (.seten true) ∧
    decode ⟨0b0100_0000_00000000000000000000000_0#32, []⟩ = .ok (.seten false) := by decide
theorem test_decode_geten : decode ⟨0b0101_0000_00000000000000000000000_0#32, []⟩ = .ok .geten := by decide
theorem test_decode_reset : decode ⟨0b0110_0000_00000000000000000000000_0#32, []⟩ = .ok .reset := by decide
theorem test_decode_process : decode ⟨0b0111_0000_00000000000000000000000_0#32, [0x100#32, 3#32, 2#32]⟩
    = .ok (.process 0x100#32 3#32 2#32) := by decide

/-- V-E2, V-E4, V-E9, V-E21, V-E24. -/
theorem test_decode_illegal :
    decode ⟨0x10000000#32, []⟩ = .error .operandCount ∧
    decode ⟨0x11000000#32, [0x472C4400#32]⟩ = .error .reservedBit ∧
    decode ⟨0x20000001#32, [0x41200000#32]⟩ = .error .reservedBit ∧
    decode ⟨0x6F000000#32, []⟩ = .error .reservedBit ∧
    decode ⟨0x00000000#32, []⟩ = .error .reservedOpcode := by decide

theorem test_decode_table_word : decodeTableWord 32 0x70000000 = some (.process 0#32 0#32 0#32) ∧
    decodeTableWord 64 0x472C440010000000 = some (.init 0x472C4400#32) ∧ decodeTableWord 32 0x10000001 = none := by
  decide

/-- R71: P1 line 3 followed by another message in one stream. -/
theorem test_stream : takeMessage [0x70000000#32, 0x100#32, 2#32, 2#32, 0x50000000#32]
    = some (⟨0x70000000#32, [0x100#32, 2#32, 2#32]⟩, [0x50000000#32]) := by decide

/-! ### Binary32 and the recipes -/

/-- Ties to even, at 1.0: 1 + 2^-24 stays, 1 + 2^-23 + 2^-24 rounds up to even. -/
theorem test_fadd_ties : fadd 0x3F800000#32 0x33800000#32 = 0x3F800000#32 ∧
    fadd 0x3F800001#32 0x33800000#32 = 0x3F800002#32 := by decide +kernel

/-- R12: doubling PI32; R8: subnormals are kept; x - x is +0.0. -/
theorem test_fmul_fsub : fmul f2 pi32 = twoPi32 ∧ fmul 0x00000002#32 0x3F000000#32 = 0x00000001#32 ∧
    fsub f10 f10 = f0 := by decide +kernel

/-- Square roots: 4 to 2, and 2 to the correctly rounded 0x3FB504F3. -/
theorem test_fsqrt : fsqrt 0x40800000#32 = f2 ∧ fsqrt f2 = 0x3FB504F3#32 := by decide +kernel

/-- The intermediate values of V-C1: w for 1000 Hz at 44100 Hz. -/
theorem test_omega : omega 0x447A0000#32 0x472C4400#32 = 0x3E11E531#32 := by decide +kernel

/-- V-C1, with A, sin and cos correctly rounded (REF_CR). -/
theorem test_peaking : peakingSet f1 0x3FB4CE08#32 0x3E1166F5#32 0x3F7D67F4#32
    = ⟨0x3F8618BE#32, 0xBFF14765#32, 0x3F5B4DD8#32, 0xBFF14765#32, 0x3F677F52#32⟩ := by decide +kernel

/-- V-C3 (REF_CR). -/
theorem test_lowshelf : lowShelfSet f0707 0x40B3F300#32 0x3B8C0F1D#32 0x3F7FFF67#32
    = ⟨0x3F80C1AE#32, 0xBFFFAAD4#32, 0x3F7DD900#32, 0xBFFFAC74#32, 0x3F7F5922#32⟩ := by decide +kernel

/-- V-C5 (REF_CR). -/
theorem test_highshelf : highShelfSet f0707 0x3E361887#32 0x3F42567D#32 0xBF26A3C6#32
    = ⟨0x3EB40305#32, 0x3F040F2D#32, 0x3E517CD1#32, 0xBDCF7370#32, 0x3E31794F#32⟩ := by decide +kernel

/-- V-P1. -/
theorem test_stage : stageOut ⟨0x3F000000#32, 0x3E800000#32, 0x3E000000#32, 0xBF000000#32, 0x3E800000#32⟩
    ⟨0x3F800000#32, 0xBF800000#32, 0x3F000000#32, 0x3E800000#32⟩ 0x3F800000#32 = 0x3F500000#32 := by decide +kernel

/-- V-G1, V-G5, V-G6, V-G8, V-G10, V-G11. -/
theorem test_clamp : clampNumber 0x42340000#32 = f30 ∧ clampNumber 0x41F00001#32 = f30 ∧
    clampNumber 0xC1F00001#32 = fNeg30 ∧ clampNumber 0x7F800000#32 = f30 ∧
    clampNumber 0x80000000#32 = 0x80000000#32 ∧ clampNumber 0x00000001#32 = 0x00000001#32 := by decide

/-- V-L2, V-L4, V-L5, V-L8, V-L10. -/
theorem test_clip : clipNumber 0x3F800001#32 = f1 ∧ clipNumber 0xBF800000#32 = fNeg1 ∧
    clipNumber 0xBF800001#32 = fNeg1 ∧ clipNumber 0x80000000#32 = 0x80000000#32 ∧
    clipNumber 0xFF800000#32 = fNeg1 := by decide

/-! ### Commands, one step each, on small states -/

/-- An uninitialized, disabled block. -/
def cold : State := { State.reset with en := false }

/-- An enabled block, initialized at 44100 Hz, whose stages hold the pass-through set. -/
def ready : State := { State.reset with en := true, initd := true, fs := some 0x472C4400#32 }

/-- A field of the next state. -/
def after {α : Type} (o : Host.Outcome State Fault Refusal) (f : State → α) : Option α :=
  match o with
  | .next t => some (f t)
  | .fault _ => none
  | .refused _ => none

/-- The response an outcome recorded on port CTRL. -/
def answer (o : Host.Outcome State Fault Refusal) : Option (Option Response) := after o (fun t => t.ctrl.undelivered)

/-- The fault of an outcome. -/
def stopped (o : Host.Outcome State Fault Refusal) : Option Fault :=
  match o with
  | .next _ => none
  | .fault f => some f
  | .refused _ => none

theorem test_init_stores_rate : after (exec (.init 0x472C4400#32) cold) (fun t => (t.fs, t.initd, t.en))
    = some (some 0x472C4400#32, true, false) := by decide

/-- V-T2. -/
theorem test_setgain_clamps : after (exec (.setgain 8#4 0xC2C80000#32) cold) (fun t => (t.gainAt 8, t.gainAt 7))
    = some (0xC1F00000#32, 0#32) := by decide

/-- V-K3: no tune before INIT. -/
theorem test_setgain_untuned : after (exec (.setgain 4#4 0x40C00000#32) cold) (fun t => t.coefAt 4 .ch1)
    = some ⟨0x3F800000#32, 0#32, 0#32, 0#32, 0#32⟩ := by decide

/-- V-K11. -/
theorem test_getgain_negative_zero : answer (exec (.getgain 2#4) (cold.setGain 2 0x80000000#32))
    = some (some ⟨0x80000000#32, .ok⟩) := by decide

/-- V-E12. -/
theorem test_getgain_out_of_range : answer (exec (.getgain 9#4) (cold.setGain 8 f30)) = some (some ⟨0#32, .ok⟩) := by
  decide

theorem test_seten : after (exec (.seten true) cold) (fun t => t.en) = some true := by decide

/-- V-K10. -/
theorem test_geten : answer (exec .geten ready) = some (some ⟨1#32, .ok⟩) := by decide

/-- R106 on an uninitialized block with a gain and a history. -/
theorem test_reset : after (exec .reset ((cold.setGain 3 f30).setHist 7 .ch1 ⟨f1, f1, f1, f1⟩))
    (fun t => (t.gainAt 3, t.histAt 7 .ch1, t.initd)) = some (0#32, ⟨0#32, 0#32, 0#32, 0#32⟩, false) := by decide

/-- V-I10's placement at the top of memory, through pass-through stages, with V-L6's sample on channel 1. -/
theorem test_process_top_of_memory :
    after (exec (.process 0xFFFFFFFE#32 1#32 2#32)
        ((ready.memWrite 0xFFFFFFFE 0x3E800000#32).memWrite 0xFFFFFFFF 0xC0600000#32))
      (fun t => (t.memRead 0xFFFFFFFE, t.memRead 0xFFFFFFFF, (t.histAt 8 .ch1).y1))
    = some (0x3E800000#32, 0xBF800000#32, 0xC0600000#32) := by decide +kernel

/-- V-I11, V-I12, V-I14. -/
theorem test_process_range : stopped (exec (.process 0xFFFFFFFF#32 1#32 2#32) ready)
      = some (.bufferRange 0xFFFFFFFF#32 1#32 2#32) ∧
    stopped (exec (.process 0#32 0x80000000#32 4#32) ready) = some (.bufferRange 0#32 0x80000000#32 4#32) ∧
    stopped (exec (.process 0xFFFFFFFF#32 0#32 2#32) ready) = none := by decide

/-- A NaN reaching the limiter takes a draw and ends in range, whatever the draw (R124). -/
theorem test_clip_nan : (ready.clip 0x7FC00000#32).2.draws = 1 ∧ inRange fNeg1 f1 (ready.clip 0x7FC00000#32).1 = true :=
  ⟨rfl, ready.draw_inRange (by decide)⟩

/-! ### Steps -/

/-- P2 line 26: a reserved opcode answers RESP 0, ST 1. -/
theorem test_step_illegal : answer (step (cold.placeMessage .ctrl ⟨0#32, []⟩)) = some (some ⟨0#32, .illegal⟩) := by decide

/-- The host's placement: the word of GETEN on the reset state is what the next step runs. -/
theorem test_step_runs_placed_word : after (step (State.reset.withFetchWord 32 0x50000000))
    (fun t => (t.ctrl.pending, t.ctrl.undelivered.isSome, t.ctrl.state)) = some (none, true, .idle) := by decide

/-- R148: the agent's next message becomes pending on its idle port. -/
theorem test_step_send : after (step (cold.load [⟨0x40000001#32, []⟩, ⟨0x50000000#32, []⟩] []))
    (fun t => (t.ctrl.pending, t.ctrl.toSend, t.en)) = some (some ⟨0x40000001#32, []⟩, [⟨0x50000000#32, []⟩], false) := by
  decide

/-- R73: `AUDIO: GETGAIN 0x9 ; comment`, and the pseudo-command `DISABLE`. -/
theorem test_assembler :
    parseLine ['A', 'U', 'D', 'I', 'O', ':', ' ', 'G', 'E', 'T', 'G', 'A', 'I', 'N', ' ', '0', 'x', '9', ' ', ';', ' ', 'c']
      = some ⟨.audio, [.getgain 9#4]⟩ ∧
    parseLine ['D', 'I', 'S', 'A', 'B', 'L', 'E'] = some ⟨.ctrl, [.seten false]⟩ := by decide +kernel

/-- R73: -12.5 and 44100.0 as binary32 literals. -/
theorem test_literals : parseF32 ['-', '1', '2', '.', '5'] = some 0xC1480000#32 ∧
    parseF32 ['4', '4', '1', '0', '0', '.', '0'] = some 0x472C4400#32 := by decide +kernel

/-! ### Witnesses: the hypotheses of each statement, met together by concrete terms -/

theorem witness_encodeOfDecode : decode ⟨0x50000000#32, []⟩ = .ok .geten := by decide
theorem witness_opcodeRows : ⟨.geten, 0x5#4, 0x50000000#32, 0xFFFFFFFF#32, 0⟩ ∈ opcodeTable ∧
    0x50000000#32 &&& 0xFFFFFFFF#32 = 0x50000000#32 := by decide
theorem witness_streamCuts : decode ⟨0x70000000#32, [0x100#32, 2#32, 2#32]⟩ = .ok (.process 0x100#32 2#32 2#32) := by decide
/-- The two sides of the host's band range, at its ends. -/
theorem witness_hostBand : (0 ≤ (8 : Int) ∧ (8 : Int) ≤ 8) ∧ hostBand 8 = 8#4 ∧ hostBand 0 = 0#4 ∧
    ¬(0 ≤ (9 : Int) ∧ (9 : Int) ≤ 8) ∧ hostBand 9 = 0xF#4 ∧ hostBand (-1) = 0xF#4 := by decide
theorem witness_rounding : 0 < 3 ∧ 5 < infMag ∧ roundMag 10 3 < infMag ∧ roundMag 10 3 = 3 := by decide +kernel
theorem witness_roundingOverflow : roundMag (2 ^ 277 - 2 ^ 252) 1 = infMag ∧ roundMag (2 ^ 277 - 2 ^ 252 - 1) 1 < infMag := by
  decide +kernel
/-- A sum whose result is finite, one at a tie between two values (1 + 2^-24, rounded to the even one), and one past the
overflow bound. -/
theorem witness_add : isFinite f10 = true ∧ isFinite f30 = true ∧ isFinite (fadd f10 f30) = true ∧
    isFinite (fsub f10 f30) = true ∧
    valOf 0x3F800001#32 ≠ valOf (fadd f1 0x33800000#32) ∧
    2 * (valOf f1 + valOf 0x33800000#32) = valOf 0x3F800001#32 + valOf (fadd f1 0x33800000#32) ∧
    isFinite 0x7F7FFFFF#32 = true ∧ isFinite (fadd 0x7F7FFFFF#32 0x7F7FFFFF#32) = false := by decide +kernel
/-- A tie of `fmul` at half the smallest subnormal, and an overflow. -/
theorem witness_mul : isFinite 0x00000001#32 = true ∧ isFinite 0x3F000000#32 = true ∧
    fmul 0x00000001#32 0x3F000000#32 = f0 ∧
    2 * (valOf 0x00000001#32 * valOf 0x3F000000#32) = (valOf 0x00000001#32 + valOf f0) * 2 ^ 149 ∧
    fmul 0xFF7FFFFF#32 f2 = 0xFF800000#32 := by decide +kernel
/-- A finite quotient, a tie of `fdiv` at half the smallest subnormal, an overflow, and the two zero divisors. -/
theorem witness_div : isFinite f10 = true ∧ isFinite f30 = true ∧ isZero f30 = false ∧ isFinite (fdiv f10 f30) = true ∧
    fdiv 0x00000001#32 f2 = f0 ∧ fdiv 0x7F7FFFFF#32 0xBF000000#32 = 0xFF800000#32 ∧
    isZero 0x80000000#32 = true ∧ fdiv f10 0x80000000#32 = 0xFF800000#32 ∧ isZero f0 = true := by decide +kernel
/-- A positive operand with finite values on either side of its root, and each of the other operands. -/
theorem witness_sqrt : isFinite f2 = true ∧ isZero f2 = false ∧ signOf f2 = false ∧ isFinite f1 = true ∧
    signOf f1 = false ∧ valOf f1 < valOf (fsqrt f2) ∧ valOf (fsqrt f2) < valOf f2 ∧ isZero 0x80000000#32 = true ∧
    fsqrt 0x80000000#32 = 0x80000000#32 ∧ isZero fNeg2 = false ∧ signOf fNeg2 = true ∧ signOf 0xFF800000#32 = true := by
  decide +kernel
/-- One operand pair for each clause: an infinity beside a finite value, itself, its negation, a zero and a NaN; zero
sums of each kind of sign. -/
theorem witness_specials : isInf 0x7F800000#32 = true ∧ isFinite f10 = true ∧ fneg 0x7F800000#32 = 0xFF800000#32 ∧
    isInf 0xFF800000#32 = true ∧ isZero 0x80000000#32 = true ∧ isZero f10 = false ∧ isNaN f10 = false ∧
    isNaN 0x7FC00000#32 = true ∧ valOf f10 + valOf (fneg f10) = 0 ∧ valOf 0x80000000#32 + valOf 0x80000000#32 = 0 ∧
    valOf f0 + valOf 0x80000000#32 = 0 := by decide +kernel
/-- The ends of the third law's range, a zero y for the first law, a nonzero x for the second (R9). -/
theorem witness_laws : inRange 0xBF400000#32 0x3F400000#32 0x3F400000#32 = true ∧
    inRange 0xBF400000#32 0x3F400000#32 0xBF400000#32 = true ∧ isZero 0x80000000#32 = true ∧
    isFinite 0x00000001#32 = true ∧ isZero 0x00000001#32 = false := by decide
theorem witness_nan : isNaN 0x7FC00000#32 = true := by decide
/-- A zero gain with a finite nonzero a0, for each recipe's a0 at A = 1.0. -/
theorem witness_zeroGain : isZero f0 = true ∧ isZero 0x80000000#32 = true ∧ isFinite 0x3E1166F5#32 = true ∧
    isFinite 0x3F7D67F4#32 = true ∧ ampOf f0 = f1 ∧ ampOf 0x80000000#32 = f1 ∧
    isFinite (fadd f1 (fdiv (fdiv 0x3E1166F5#32 (fmul f2 f1)) f1)) = true ∧
    isZero (fadd f1 (fdiv (fdiv 0x3E1166F5#32 (fmul f2 f1)) f1)) = false := by decide +kernel
theorem witness_zeroGain_lowShelf :
    isFinite (fadd (fadd (fadd f1 f1) (fmul (fsub f1 f1) f0)) (fmul (fdiv (fsqrt f1) f0707) f1)) = true ∧
    isZero (fadd (fadd (fadd f1 f1) (fmul (fsub f1 f1) f0)) (fmul (fdiv (fsqrt f1) f0707) f1)) = false := by decide +kernel
theorem witness_zeroGain_highShelf :
    isFinite (fadd (fsub (fadd f1 f1) (fmul (fsub f1 f1) f0)) (fmul (fdiv (fsqrt f1) f0707) f1)) = true ∧
    isZero (fadd (fsub (fadd f1 f1) (fmul (fsub f1 f1) f0)) (fmul (fdiv (fsqrt f1) f0707) f1)) = false := by decide +kernel
/-- V-C7's band 4 set. -/
theorem witness_identityStage : (Coef.mk f1 0xBFEC9B8C#32 0x3F5E0F25#32 0xBFEC9B8C#32 0x3F5E0F25#32).b0 = f1 ∧
    isFinite 0xBFEC9B8C#32 = true ∧ isFinite 0x3F5E0F25#32 = true := by decide
theorem witness_channels : (∀ b, ready.coefAt b .ch0 = cold.coefAt b .ch0) ∧
    (∀ b, ready.histAt b .ch0 = (cold.setHist 0 .ch1 ⟨f1, f1, f1, f1⟩).histAt b .ch0) := by decide
theorem witness_band : bandIndex 8#4 = some 8 ∧ bandIndex 0#4 = some 0 ∧ bandIndex 9#4 = none ∧
    8 < (9#4).toNat ∧ (8#4).toNat ≤ 8 := by decide
/-- The clamp's and the limiter's clauses at the values where they meet (V-G3, V-G5, V-G4, V-L3, V-L2, V-L4). -/
theorem witness_clampClauses : inRange fNeg30 f30 0x41F00000#32 = true ∧ fgt 0x41F00001#32 f30 = true ∧
    inRange fNeg30 f30 0xC1F00000#32 = true ∧ flt 0xC1F00001#32 fNeg30 = true ∧ inRange fNeg30 f30 0x41F00001#32 = false ∧
    inRange fNeg1 f1 0x3F800000#32 = true ∧ fgt 0x3F800001#32 f1 = true ∧ inRange fNeg1 f1 0xBF800000#32 = true ∧
    flt 0xBF800001#32 fNeg1 = true := by decide
theorem witness_onlyWrites : ∃ t, exec (.seten true) cold = .next t ∧ t.en ≠ cold.en := ⟨_, rfl, by decide⟩
theorem witness_modes : (after (performMessage .audio ⟨0x10000000#32, [0x472C4400#32]⟩ cold) (fun t => t.initd))
    = some true := by decide
theorem witness_inactive : cold.active = false := by decide
/-- The admission at its bound: the last word is in, one more is out (R47). -/
theorem witness_activeProcess : ready.active = true ∧ ready.mem.wf = true ∧ ready.bufOk 0xFFFFFFFE 2 = true ∧
    ready.bufOk 0xFFFFFFFF 2 = false := by decide
theorem witness_processOutputs : (∃ t, exec (.process 0x100#32 1#32 1#32) ready = .next t) ∧
    IsSampleWord 0x100 1 1 0x100 := ⟨⟨_, rfl⟩, 0, by decide, .ch0, by decide, rfl⟩
theorem witness_sampleWords : Channel.ch1 ∈ processedChannels 3 ∧ Channel.ch0 ∈ processedChannels 1 ∧
    Channel.ch1 ∉ processedChannels 1 ∧ sampleAddr 0x200 1 .ch1 3 = sampleAddr 0x200 1 .ch1 3 := by decide
theorem witness_illegal : decode ⟨0x8000_0000#32, [1#32]⟩ = .error .reservedOpcode := by decide
theorem witness_stepRuns : (cold.placeMessage .audio ⟨0x50000000#32, []⟩).chooseMove = some (.perform .audio) ∧
    ((cold.placeMessage .audio ⟨0x50000000#32, []⟩).port .audio).pending = some ⟨0x50000000#32, []⟩ ∧
    decode ⟨0x50000000#32, []⟩ = .ok .geten := by decide
theorem witness_send : (cold.load [⟨0x50000000#32, []⟩] []).chooseMove = some (.send .ctrl) ∧
    ∃ t, step (cold.load [⟨0x50000000#32, []⟩] []) = .next t := ⟨by decide, _, rfl⟩
theorem witness_take : ({ cold with audio := { cold.audio with undelivered := some ⟨0#32, .ok⟩ } } : State).chooseMove
      = some (.take .audio) ∧
    ∃ t, step { cold with audio := { cold.audio with undelivered := some ⟨0#32, .ok⟩ } } = .next t :=
  ⟨by decide, _, rfl⟩
theorem witness_enabled : (cold.load [] [⟨0x50000000#32, []⟩]).enabled (.send .audio) = true := by decide
theorem witness_inv : (cold.load [⟨0x50000000#32, []⟩] []).Inv ∧
    ∃ t, step (cold.load [⟨0x50000000#32, []⟩] []) = .next t := by
  refine ⟨⟨?_, ?_, ?_, ?_, ⟨rfl, rfl⟩, ⟨rfl, Or.inl rfl⟩, ⟨rfl, Or.inl rfl⟩⟩, _, rfl⟩
  · show ∀ b, _; decide
  · show ∀ b, _; decide
  · show _ → ∀ b c, _; intro _ b c; cases c <;> revert b <;> decide
  · intro h; exact absurd h (by decide)
theorem witness_portsOrderly : (cold.load [⟨0x50000000#32, []⟩] []).PortsOrderly ∧
    (cold.load [⟨0x50000000#32, []⟩] []).left = 3 :=
  ⟨⟨⟨rfl, Or.inl rfl⟩, ⟨rfl, Or.inl rfl⟩⟩, rfl⟩
theorem witness_ended : cold.ended = true := by decide

end Sys2Proof.Tests
end

section
/-! SUPPORT. `roundMag` (00_scope.md R8): the value of magnitude bits, binade by binade, and the magnitude nearest to a
rational, said by midpoints: on which side of every midpoint between the result and another magnitude the exact value
lies. Correct rounding by distance (`NearestMag.abs_sub_le`), the overflow bound and the square root follow from it. -/

namespace Sys2Proof.Machine

/-! ### The units that magnitude bits stand for -/

/-- A significand q of quantum 2^j: 24 bits, fewer only when subnormal, and 2^24 where rounding carries out. -/
theorem unitsOf_significand {j q : Nat} (hq : q ≤ 2 ^ 24) (hj : j = 0 ∨ 2 ^ 23 ≤ q) :
    unitsOf (j * 2 ^ 23 + q) = q * 2 ^ j := by
  have of_div_mod {e f : Nat} (hdiv : (j * 2 ^ 23 + q) / 2 ^ 23 = e + 1) (hmod : (j * 2 ^ 23 + q) % 2 ^ 23 = f) :
      unitsOf (j * 2 ^ 23 + q) = (2 ^ 23 + f) * 2 ^ e := by
    rw [unitsOf, if_neg (by omega), hdiv, hmod, Nat.add_sub_cancel]
  rcases lt_or_ge q (2 ^ 23) with hsub | hnorm
  · obtain rfl : j = 0 := by omega
    rw [Nat.zero_mul, Nat.zero_add, unitsOf, if_pos hsub, pow_zero, Nat.mul_one]
  rcases hq.lt_or_eq with hlt | rfl
  · rw [of_div_mod (e := j) (f := q - 2 ^ 23) (by omega) (by omega), Nat.add_sub_cancel' hnorm]
  · rw [of_div_mod (e := j + 1) (f := 0) (by omega) (by omega)]
    ring

/-- Every magnitude has a significand below 2^24. -/
theorem exists_significand (m : Nat) :
    ∃ j q, m = j * 2 ^ 23 + q ∧ q < 2 ^ 24 ∧ (j = 0 ∨ 2 ^ 23 ≤ q) := by
  rcases lt_or_ge m (2 ^ 23) with hsub | hnorm
  · exact ⟨0, m, by omega, by omega, Or.inl rfl⟩
  · exact ⟨m / 2 ^ 23 - 1, 2 ^ 23 + m % 2 ^ 23, by omega, by omega, Or.inr (by omega)⟩

theorem unitsOf_strictMono : StrictMono unitsOf := by
  refine strictMono_nat_of_lt_succ fun m => ?_
  obtain ⟨j, q, rfl, hq, hj⟩ := exists_significand m
  rw [unitsOf_significand hq.le hj, Nat.add_assoc, unitsOf_significand (Nat.succ_le_of_lt hq) (by omega)]
  exact Nat.mul_lt_mul_of_pos_right q.lt_succ_self (by positivity)

@[simp] theorem unitsOf_zero : unitsOf 0 = 0 := rfl

theorem unitsOf_pos {m : Nat} (hm : 0 < m) : 0 < unitsOf m := unitsOf_strictMono hm

theorem unitsOf_infMag : unitsOf infMag = 2 ^ 277 := by decide +kernel

theorem unitsOf_infMag_sub_one : unitsOf (infMag - 1) = 2 ^ 277 - 2 ^ 253 := by decide +kernel

/-- From 2^24 on the quantum is at least 2 units. -/
theorem even_unitsOf {m : Nat} (hm : 2 ^ 24 ≤ m) : Even (unitsOf m) := by
  obtain ⟨j, q, rfl, hq, hj⟩ := exists_significand m
  rw [unitsOf_significand hq.le hj]
  exact (Nat.even_pow.2 ⟨even_two, by omega⟩).mul_left q

/-- One significand up is at least one quantum up. -/
theorem significand_add_one_le {j q p : Nat} (hq : q ≤ 2 ^ 24) (hj : j = 0 ∨ 2 ^ 23 ≤ q) (hp : j * 2 ^ 23 + q < p) :
    (q + 1) * 2 ^ j ≤ unitsOf p := by
  refine le_trans ?_ (unitsOf_strictMono.monotone (Nat.succ_le_of_lt hp))
  rcases hq.lt_or_eq with hlt | rfl
  · rw [Nat.succ_eq_add_one, Nat.add_assoc, unitsOf_significand (Nat.succ_le_of_lt hlt) (by omega)]
  · have hcarry : (j * 2 ^ 23 + 2 ^ 24).succ = (j + 1) * 2 ^ 23 + (2 ^ 23 + 1) := by omega
    rw [hcarry, unitsOf_significand (by norm_num) (by norm_num)]
    calc (2 ^ 24 + 1) * 2 ^ j ≤ (2 ^ 23 + 1) * 2 * 2 ^ j := Nat.mul_le_mul_right _ (by norm_num)
      _ = (2 ^ 23 + 1) * 2 ^ (j + 1) := by ring

/-- One significand down, inside a binade, is at least one quantum down. -/
theorem unitsOf_add_quantum_le {j q p : Nat} (hq : q ≤ 2 ^ 24) (hj : j = 0 ∨ 2 ^ 23 < q) (hp : p < j * 2 ^ 23 + q) :
    unitsOf p + 2 ^ j ≤ q * 2 ^ j := by
  obtain ⟨q, rfl⟩ : ∃ r, q = r + 1 := ⟨q - 1, by omega⟩
  have hle : unitsOf p ≤ unitsOf (j * 2 ^ 23 + q) := unitsOf_strictMono.monotone (by omega)
  rw [unitsOf_significand (by omega) (by omega)] at hle
  linarith

/-! ### Division to nearest -/

/-- The quotient, or the next integer when the remainder is over half, or is half and the quotient odd. -/
theorem divNearest_cases (num d : Nat) :
    (divNearest num d = num / d + 1 ∧ (d < 2 * (num % d) ∨ (2 * (num % d) = d ∧ num / d % 2 = 1))) ∨
    (divNearest num d = num / d ∧ ¬(d < 2 * (num % d) ∨ (2 * (num % d) = d ∧ num / d % 2 = 1))) := by
  by_cases hup : d < 2 * (num % d) ∨ (2 * (num % d) = d ∧ num / d % 2 = 1)
  · exact Or.inl ⟨if_pos hup, hup⟩
  · exact Or.inr ⟨if_neg hup, hup⟩

/-- `divNearest` is off by at most half, and even where it is off by exactly half. -/
theorem divNearest_spec (num : Nat) {d : Nat} (hd : 0 < d) :
    (2 * divNearest num d * d ≤ 2 * num + d ∧ (2 * divNearest num d * d = 2 * num + d → divNearest num d % 2 = 0)) ∧
    (2 * num ≤ 2 * divNearest num d * d + d ∧ (2 * num = 2 * divNearest num d * d + d → divNearest num d % 2 = 0)) := by
  have hdiv : d * (num / d) + num % d = num := Nat.div_add_mod num d
  have hmod : num % d < d := Nat.mod_lt num hd
  rcases divNearest_cases num d with ⟨hq, hup⟩ | ⟨hq, hdown⟩
  · have hmul : 2 * (num / d + 1) * d = 2 * (d * (num / d)) + 2 * d := by ring
    rw [hq]; omega
  · have hmul : 2 * (num / d) * d = 2 * (d * (num / d)) := by ring
    rw [hq]; omega

theorem div_le_divNearest (num d : Nat) : num / d ≤ divNearest num d := by
  rcases divNearest_cases num d with ⟨hq, -⟩ | ⟨hq, -⟩ <;> omega

theorem divNearest_le_div_add_one (num d : Nat) : divNearest num d ≤ num / d + 1 := by
  rcases divNearest_cases num d with ⟨hq, -⟩ | ⟨hq, -⟩ <;> omega

/-! ### The nearest magnitude -/

/-- The magnitude m is nearest to `num / den` units, ties to even: the exact value is not beyond the midpoint of m and
any other magnitude, and m is even where it is on such a midpoint. -/
structure NearestMag (num den m : Nat) : Prop where
  below : ∀ p < m, (unitsOf p + unitsOf m) * den ≤ 2 * num
  above : ∀ p, m < p → 2 * num ≤ (unitsOf p + unitsOf m) * den
  even_of_tie : ∀ p ≠ m, (unitsOf p + unitsOf m) * den = 2 * num → m % 2 = 0

/-- What `roundMag` answers before it overflows: the exponent range has no upper end. -/
def roundUnbounded (num den : Nat) : Nat :=
  ((num / den).log2 - 23) * 2 ^ 23 + divNearest num (den * 2 ^ ((num / den).log2 - 23))

theorem roundMag_eq_min (num den : Nat) : roundMag num den = min (roundUnbounded num den) infMag := rfl

/-- The quantum `roundMag` takes leaves a significand of 24 bits, or of fewer when the result is subnormal. -/
theorem quotient_significand (num den : Nat) :
    num / (den * 2 ^ ((num / den).log2 - 23)) < 2 ^ 24 ∧
    ((num / den).log2 - 23 = 0 ∨ 2 ^ 23 ≤ num / (den * 2 ^ ((num / den).log2 - 23))) := by
  rw [← Nat.div_div_eq_div_mul]
  generalize num / den = n
  constructor
  · rw [Nat.div_lt_iff_lt_mul (by positivity), ← pow_add]
    exact lt_of_lt_of_le Nat.lt_log2_self (Nat.pow_le_pow_right two_pos (by omega))
  · by_cases hj : n.log2 - 23 = 0
    · exact Or.inl hj
    · have hn : n ≠ 0 := by rintro rfl; simp at hj
      right
      rw [Nat.le_div_iff_mul_le (by positivity), ← pow_add, show 23 + (n.log2 - 23) = n.log2 by omega]
      exact Nat.log2_self_le hn

/-- A significand rounded to nearest is the nearest magnitude; below the lowest significand of a binade the magnitudes
are closer, but there the value was not rounded up. -/
theorem nearestMag_significand {num den j q : Nat} (hden : 0 < den) (hq : q = divNearest num (den * 2 ^ j))
    (hlt : num / (den * 2 ^ j) < 2 ^ 24) (hj : j = 0 ∨ 2 ^ 23 ≤ num / (den * 2 ^ j)) :
    NearestMag num den (j * 2 ^ 23 + q) := by
  have hd : 0 < den * 2 ^ j := by positivity
  obtain ⟨⟨hlow, hlowEven⟩, hhigh, hhighEven⟩ := divNearest_spec num hd
  have hge := div_le_divNearest num (den * 2 ^ j)
  have hle := divNearest_le_div_add_one num (den * 2 ^ j)
  rw [← hq] at hlow hlowEven hhigh hhighEven hge hle
  have hq24 : q ≤ 2 ^ 24 := by omega
  have hjq : j = 0 ∨ 2 ^ 23 ≤ q := by omega
  have hunits := unitsOf_significand hq24 hjq
  have hbelow : ∀ p < j * 2 ^ 23 + q, (unitsOf p + unitsOf (j * 2 ^ 23 + q)) * den ≤ 2 * num ∧
      ((unitsOf p + unitsOf (j * 2 ^ 23 + q)) * den = 2 * num → q % 2 = 0) := by
    intro p hp
    by_cases hinside : j = 0 ∨ 2 ^ 23 < q
    · have hgap := Nat.mul_le_mul_right den (unitsOf_add_quantum_le hq24 hinside hp)
      rw [hunits]
      constructor
      · linarith
      · intro htie; exact hlowEven (by linarith)
    · obtain rfl : q = 2 ^ 23 := by omega
      have hexact : 2 ^ 23 * (den * 2 ^ j) ≤ num := (Nat.le_div_iff_mul_le hd).1 (by omega)
      have hless := Nat.mul_le_mul_right den (unitsOf_strictMono hp).le
      rw [hunits] at hless ⊢
      exact ⟨by linarith, fun _ => by norm_num⟩
  have habove : ∀ p, j * 2 ^ 23 + q < p → 2 * num ≤ (unitsOf p + unitsOf (j * 2 ^ 23 + q)) * den ∧
      ((unitsOf p + unitsOf (j * 2 ^ 23 + q)) * den = 2 * num → q % 2 = 0) := by
    intro p hp
    have hgap := Nat.mul_le_mul_right den (significand_add_one_le hq24 hjq hp)
    rw [hunits]
    constructor
    · linarith
    · intro htie; exact hhighEven (by linarith)
  refine ⟨fun p hp => (hbelow p hp).1, fun p hp => (habove p hp).1, fun p hp htie => ?_⟩
  have heven : q % 2 = 0 := hp.lt_or_gt.elim (fun h => (hbelow p h).2 htie) (fun h => (habove p h).2 htie)
  omega

theorem roundUnbounded_nearest (num : Nat) {den : Nat} (hden : 0 < den) :
    NearestMag num den (roundUnbounded num den) :=
  have ⟨hlt, hj⟩ := quotient_significand num den
  nearestMag_significand hden rfl hlt hj

theorem roundMag_nearest {num den : Nat} (hden : 0 < den) (hfin : roundMag num den < infMag) :
    NearestMag num den (roundMag num den) := by
  have hsame : roundMag num den = roundUnbounded num den := by
    rw [roundMag_eq_min] at hfin ⊢; omega
  exact hsame ▸ roundUnbounded_nearest num hden

theorem roundMag_le_infMag (num den : Nat) : roundMag num den ≤ infMag := min_le_right _ _

/-- The nearest magnitude by distance. -/
theorem NearestMag.abs_sub_le {num den m : Nat} (h : NearestMag num den m) (hden : 0 < den) (p : Nat) :
    |(unitsOf m : Int) * den - num| ≤ |(unitsOf p : Int) * den - num| ∧
    (|(unitsOf m : Int) * den - num| = |(unitsOf p : Int) * den - num| → p ≠ m → m % 2 = 0) := by
  have heven := h.even_of_tie p
  rw [Nat.add_mul] at heven
  simp only [Int.abs_eq_natAbs, ← Nat.cast_mul]
  rcases lt_trichotomy p m with hlt | rfl | hgt
  · have hmid := h.below p hlt
    have hmono : unitsOf p * den < unitsOf m * den := Nat.mul_lt_mul_of_pos_right (unitsOf_strictMono hlt) hden
    rw [Nat.add_mul] at hmid
    omega
  · simp
  · have hmid := h.above p hgt
    have hmono : unitsOf m * den < unitsOf p * den := Nat.mul_lt_mul_of_pos_right (unitsOf_strictMono hgt) hden
    rw [Nat.add_mul] at hmid
    omega

/-- Settles O9: what `roundMag` answers below infinity is the nearest magnitude. -/
theorem roundingIsNearestTiesToEven : Obligations.RoundingIsNearestTiesToEven :=
  fun _ _ p hden _ hfin => (roundMag_nearest hden hfin).abs_sub_le hden p

/-- Settles O10: the bound is the midpoint of the largest finite magnitude, which is odd, and infinity's. -/
theorem roundingOverflowsAtTheIeeeBound : Obligations.RoundingOverflowsAtTheIeeeBound := by
  intro num den hden
  have hnear := roundUnbounded_nearest num hden
  have hiff : roundMag num den = infMag ↔ infMag ≤ roundUnbounded num den := by
    rw [roundMag_eq_min, min_eq_right_iff]
  have hmid : (unitsOf (infMag - 1) + unitsOf infMag) * den = 2 * ((2 ^ 277 - 2 ^ 252) * den) := by
    rw [unitsOf_infMag_sub_one, unitsOf_infMag]; omega
  rw [hiff]
  constructor
  · intro hover
    have hbelow := hnear.below (infMag - 1) (lt_of_lt_of_le (by decide) hover)
    have hmono := Nat.mul_le_mul_right den
      (Nat.add_le_add_left (unitsOf_strictMono.monotone hover) (unitsOf (infMag - 1)))
    omega
  · intro hbound
    by_contra hfin
    rw [not_le] at hfin
    have hlargest : roundUnbounded num den ≤ infMag - 1 := Nat.le_sub_one_of_lt hfin
    have habove := hnear.above infMag hfin
    have hmono : (unitsOf infMag + unitsOf (roundUnbounded num den)) * den ≤
        (unitsOf (infMag - 1) + unitsOf infMag) * den := by
      rw [Nat.add_comm]
      exact Nat.mul_le_mul_right den (Nat.add_le_add_right (unitsOf_strictMono.monotone hlargest) _)
    have heven := hnear.even_of_tie infMag hfin.ne' (by omega)
    have hsum := Nat.eq_of_mul_eq_mul_right hden (le_antisymm hmono (by omega))
    have hunits : unitsOf (roundUnbounded num den) = unitsOf (infMag - 1) := by omega
    rw [unitsOf_strictMono.injective hunits] at heven
    exact absurd heven (by decide)

theorem roundMag_lt_infMag_iff {num den : Nat} (hden : 0 < den) :
    roundMag num den < infMag ↔ num < (2 ^ 277 - 2 ^ 252) * den := by
  rw [(roundMag_le_infMag num den).lt_iff_ne, ← not_le]
  exact not_congr (roundingOverflowsAtTheIeeeBound num den hden)

end Sys2Proof.Machine
end

section
/-! SUPPORT. Binary32 values (00_scope.md R7, R8): sign and magnitude of packed and negated values, the kinds of values,
and the one fact the four operations share: a packed sign and rounded magnitude is the exact signed value, correctly
rounded (`packF_roundMag_correct`). -/

namespace Sys2Proof.Machine

/-! ### Sign and magnitude -/

theorem infMag_lt : infMag < 2 ^ 31 := by decide

theorem magOf_lt (a : F32) : magOf a < 2 ^ 31 := Nat.mod_lt _ (by norm_num)

theorem signOf_eq_true_iff (a : F32) : signOf a = true ↔ 2 ^ 31 ≤ a.toNat := by
  have hlt := a.isLt
  rw [signOf, BitVec.getLsbD, Nat.testBit_eq_decide_div_mod_eq, decide_eq_true_eq]
  omega

theorem toNat_packF {neg : Bool} {mag : Nat} (hmag : mag < 2 ^ 31) :
    (packF neg mag).toNat = if neg then 2 ^ 31 + mag else mag := by
  have hlt : (if neg then 2 ^ 31 + mag else mag) < 2 ^ 32 := by split <;> omega
  exact Nat.mod_eq_of_lt hlt

theorem magOf_packF {neg : Bool} {mag : Nat} (hmag : mag < 2 ^ 31) : magOf (packF neg mag) = mag := by
  rw [magOf, toNat_packF hmag]
  split <;> omega

theorem signOf_packF {neg : Bool} {mag : Nat} (hmag : mag < 2 ^ 31) : signOf (packF neg mag) = neg := by
  rw [Bool.eq_iff_iff, signOf_eq_true_iff, toNat_packF hmag]
  cases neg
  · simpa using hmag
  · simp

/-- A value is its sign and its magnitude bits. -/
theorem packF_signOf_magOf (a : F32) : packF (signOf a) (magOf a) = a := by
  have hlt := a.isLt
  apply BitVec.eq_of_toNat_eq
  rw [toNat_packF (magOf_lt a), magOf, if_congr (signOf_eq_true_iff a) rfl rfl]
  split <;> omega

theorem eq_of_signOf_of_magOf {a b : F32} (hsign : signOf a = signOf b) (hmag : magOf a = magOf b) : a = b := by
  rw [← packF_signOf_magOf a, hsign, hmag, packF_signOf_magOf]

@[simp] theorem signOf_fneg (a : F32) : signOf (fneg a) = !signOf a := by
  simp [signOf, fneg]

@[simp] theorem magOf_fneg (a : F32) : magOf (fneg a) = magOf a := by
  have hbits : (fneg a).toNat % 2 ^ 31 = a.toNat % 2 ^ 31 := by
    rw [fneg, BitVec.toNat_xor, Nat.xor_mod_two_pow]
    simp
  exact hbits

@[simp] theorem isNaN_fneg (a : F32) : isNaN (fneg a) = isNaN a := by simp only [isNaN, magOf_fneg]
@[simp] theorem isInf_fneg (a : F32) : isInf (fneg a) = isInf a := by simp only [isInf, magOf_fneg]
@[simp] theorem isFinite_fneg (a : F32) : isFinite (fneg a) = isFinite a := by simp only [isFinite, magOf_fneg]
@[simp] theorem isZero_fneg (a : F32) : isZero (fneg a) = isZero a := by simp only [isZero, magOf_fneg]

theorem valOf_fneg (a : F32) : valOf (fneg a) = -valOf a := by
  unfold valOf
  cases hsign : signOf a <;> simp [hsign]

/-- The infinity of a sign. -/
theorem packF_infMag (neg : Bool) : packF neg infMag = if neg then 0xFF800000#32 else 0x7F800000#32 := by
  cases neg <;> rfl

/-- The zero of a sign. -/
theorem packF_zero (neg : Bool) : packF neg 0 = if neg then 0x80000000#32 else 0#32 := by
  cases neg <;> rfl

/-! ### The kinds of values -/

theorem isFinite_iff {a : F32} : isFinite a = true ↔ magOf a < infMag := decide_eq_true_iff
theorem isInf_iff {a : F32} : isInf a = true ↔ magOf a = infMag := decide_eq_true_iff
theorem isZero_iff {a : F32} : isZero a = true ↔ magOf a = 0 := decide_eq_true_iff

theorem isNaN_of_isFinite {a : F32} (h : isFinite a = true) : isNaN a = false :=
  decide_eq_false (isFinite_iff.1 h).not_gt

theorem isInf_of_isFinite {a : F32} (h : isFinite a = true) : isInf a = false :=
  decide_eq_false (isFinite_iff.1 h).ne

theorem isNaN_of_isInf {a : F32} (h : isInf a = true) : isNaN a = false :=
  decide_eq_false (isInf_iff.1 h).not_gt

theorem isZero_of_isInf {a : F32} (h : isInf a = true) : isZero a = false :=
  decide_eq_false (by rw [isInf_iff.1 h]; decide)

theorem isNaN_of_isZero {a : F32} (h : isZero a = true) : isNaN a = false :=
  decide_eq_false (by rw [isZero_iff.1 h]; decide)

theorem isFinite_of_isZero {a : F32} (h : isZero a = true) : isFinite a = true :=
  isFinite_iff.2 (by rw [isZero_iff.1 h]; decide)

/-- Every NaN result is a NaN, whatever the free bit pattern. -/
@[simp] theorem isNaN_nanResult (op : FpOp) (a b : F32) : isNaN (nanResult op a b) = true := by
  unfold nanResult asNaN
  split
  · assumption
  · decide

/-! ### Signed values -/

/-- The integer of a sign and a magnitude. -/
def signedVal (neg : Bool) (n : Nat) : Int := if neg then -n else n

@[simp] theorem signedVal_false (n : Nat) : signedVal false n = n := rfl
@[simp] theorem signedVal_true (n : Nat) : signedVal true n = -n := rfl

theorem valOf_eq_signedVal (a : F32) : valOf a = signedVal (signOf a) (unitsOf (magOf a)) := rfl

theorem signedVal_not (neg : Bool) (n : Nat) : signedVal (!neg) n = -signedVal neg n := by
  cases neg <;> simp

theorem abs_signedVal (neg : Bool) (n : Nat) : |signedVal neg n| = n := by
  cases neg <;> simp

theorem signedVal_mul (s t : Bool) (m n : Nat) : signedVal s m * signedVal t n = signedVal (s ^^ t) (m * n) := by
  cases s <;> cases t <;> simp

theorem signedVal_mul_natCast (neg : Bool) (m n : Nat) : signedVal neg (m * n) = signedVal neg m * n := by
  cases neg <;> simp

theorem signedVal_natAbs (v : Int) : signedVal (decide (v < 0)) v.natAbs = v := by
  rcases lt_or_ge v 0 with hv | hv
  · rw [decide_eq_true hv, signedVal_true]; omega
  · rw [decide_eq_false hv.not_gt, signedVal_false]; omega

/-- A positive magnitude's sign is the sign of the value. -/
theorem signedVal_neg_iff {neg : Bool} {n : Nat} (hn : 0 < n) : signedVal neg n < 0 ↔ neg = true := by
  cases neg <;> simp [hn]

theorem unitsOf_magOf_pos {a : F32} (ha : isZero a = false) : 0 < unitsOf (magOf a) :=
  unitsOf_pos (Nat.pos_of_ne_zero (of_decide_eq_false ha))

/-! ### Correct rounding of a signed value -/

/-- What the statements about the four operations say of a result r for the exact value `x / d` units: finite exactly
below the overflow bound, else the infinity of the sign `neg`, and nearest among all finite values, ties to even. -/
def CorrectlyRounded (r : F32) (neg : Bool) (x d : Int) : Prop :=
  (isFinite r = true ↔ |x| < (2 ^ 277 - 2 ^ 252) * |d|) ∧
  (isFinite r = false → r = if neg then 0xFF800000#32 else 0x7F800000#32) ∧
  ∀ v : F32, isFinite v = true → isFinite r = true →
    |valOf r * d - x| ≤ |valOf v * d - x| ∧
    (|valOf r * d - x| = |valOf v * d - x| → valOf v ≠ valOf r → magOf r % 2 = 0)

/-- Negating the exact value and the divisor together changes nothing. -/
theorem CorrectlyRounded.negate {r : F32} {neg : Bool} {x d : Int} (h : CorrectlyRounded r neg x d) :
    CorrectlyRounded r neg (-x) (-d) := by
  have hdist (y : Int) : |y * -d - -x| = |y * d - x| := by rw [← abs_neg]; congr 1; ring
  simpa only [CorrectlyRounded, hdist, abs_neg] using h

theorem abs_signedVal_sub_same (s : Bool) (u d n : Nat) :
    |signedVal s u * d - signedVal s n| = |(u : Int) * d - n| := by
  cases s
  · rfl
  · rw [signedVal_true, signedVal_true, ← abs_neg]; congr 1; ring

theorem abs_signedVal_sub_opposite (s : Bool) (u d n : Nat) :
    |signedVal (!s) u * d - signedVal s n| = (u : Int) * d + n := by
  rw [← abs_of_nonneg (a := (u : Int) * d + n) (by positivity)]
  cases s
  · rw [← abs_neg]; congr 1; simp; ring
  · congr 1; simp

/-- Among signed values too the nearest magnitude, with the exact value's sign, is nearest: a value of the other sign is
no nearer than zero is. -/
theorem NearestMag.abs_signedVal_sub_le {num den m : Nat} (h : NearestMag num den m) (hden : 0 < den) (s t : Bool)
    (p : Nat) :
    |signedVal s (unitsOf m) * den - signedVal s num| ≤ |signedVal t (unitsOf p) * den - signedVal s num| ∧
    (|signedVal s (unitsOf m) * den - signedVal s num| = |signedVal t (unitsOf p) * den - signedVal s num| →
      signedVal t (unitsOf p) ≠ signedVal s (unitsOf m) → m % 2 = 0) := by
  rw [abs_signedVal_sub_same]
  rcases Bool.eq_or_eq_not t s with rfl | rfl
  · rw [abs_signedVal_sub_same]
    obtain ⟨hle, heven⟩ := h.abs_sub_le hden p
    exact ⟨hle, fun htie hne => heven htie fun hpm => hne (by rw [hpm])⟩
  · rw [abs_signedVal_sub_opposite]
    obtain ⟨hle, heven⟩ := h.abs_sub_le hden 0
    have hzero : |((unitsOf 0 : Nat) : Int) * den - num| = num := by simp
    rw [hzero] at hle heven
    have hpos : 0 ≤ (unitsOf p : Int) * den := by positivity
    refine ⟨by linarith, fun htie hne => ?_⟩
    by_cases hp : unitsOf p = 0
    · refine heven (by rw [htie, hp]; simp) ?_
      rintro rfl
      rw [hp] at hne
      cases s <;> simp at hne
    · have : 0 < (unitsOf p : Int) * den := by positivity
      omega

/-- A packed sign and rounded magnitude is the signed exact value, correctly rounded. -/
theorem packF_roundMag_correct (s : Bool) (num : Nat) {den : Nat} (hden : 0 < den) :
    CorrectlyRounded (packF s (roundMag num den)) s (signedVal s num) den := by
  have hle := roundMag_le_infMag num den
  have hmag := magOf_packF (neg := s) (lt_of_le_of_lt hle infMag_lt)
  have hsign := signOf_packF (neg := s) (lt_of_le_of_lt hle infMag_lt)
  refine ⟨?_, fun hinf => ?_, fun v _ hfin => ?_⟩
  · rw [isFinite_iff, hmag, roundMag_lt_infMag_iff hden, abs_signedVal, Nat.abs_cast]
    omega
  · rw [← packF_infMag, hle.antisymm]
    rw [← hmag]; exact not_lt.1 (of_decide_eq_false hinf)
  · rw [isFinite_iff, hmag] at hfin
    rw [valOf_eq_signedVal (packF _ _), valOf_eq_signedVal v, hmag, hsign]
    exact (roundMag_nearest hden hfin).abs_signedVal_sub_le hden s (signOf v) (magOf v)

/-- The same by a signed divisor: by a negative one, both sides are negated. -/
theorem packF_roundMag_quotient (s t : Bool) (num : Nat) {den : Nat} (hden : 0 < den) :
    CorrectlyRounded (packF (s ^^ t) (roundMag num den)) (s ^^ t) (signedVal s num) (signedVal t den) := by
  have hround := packF_roundMag_correct (s ^^ t) num hden
  cases t
  · simpa only [Bool.xor_false, signedVal_false] using hround
  · rw [Bool.xor_true, signedVal_not] at hround
    simpa only [Bool.xor_true, signedVal_true, neg_neg] using hround.negate

/-- Where the result is infinite the exact value is not zero, so its sign is the value's. -/
theorem CorrectlyRounded.sign_of_value {r : F32} {s : Bool} {num : Nat} {d : Int} (hd : d ≠ 0)
    (h : CorrectlyRounded r s (signedVal s num) d) :
    CorrectlyRounded r (decide (signedVal s num < 0)) (signedVal s num) d := by
  obtain ⟨hfin, hinf, hnear⟩ := h
  refine ⟨hfin, fun hr => ?_, hnear⟩
  rcases num.eq_zero_or_pos with rfl | hpos
  · have hlt : |signedVal s 0| < (2 ^ 277 - 2 ^ 252) * |d| := by
      rw [abs_signedVal, Nat.cast_zero]
      exact mul_pos (sub_pos.2 (pow_lt_pow_right₀ one_lt_two (by norm_num))) (abs_pos.2 hd)
    rw [hfin.2 hlt] at hr; cases hr
  · simpa [signedVal_neg_iff hpos] using hinf hr

end Sys2Proof.Machine
end

section
/-! SUPPORT. The four operations on finite operands (00_scope.md R8, R12): each answers a packed sign and rounded
magnitude, so `packF_roundMag_correct` says what each rounds. -/

namespace Sys2Proof.Machine

/-! ### Sums and differences -/

theorem fadd_of_not_isNaN {a b : F32} (ha : isNaN a = false) (hb : isNaN b = false) :
    fadd a b = addCore .add a b a b := by simp [fadd, ha, hb]

theorem fsub_of_not_isNaN {a b : F32} (ha : isNaN a = false) (hb : isNaN b = false) :
    fsub a b = addCore .sub a (fneg b) a b := by simp [fsub, ha, hb]

theorem roundMag_zero (den : Nat) : roundMag 0 den = 0 := by
  simp [roundMag, divNearest]

/-- A finite sum of value zero is a zero, negative only for two negative zeros. -/
theorem addCore_of_sum_eq_zero {op : FpOp} {a b x y : F32} (ha : isFinite a = true) (hb : isFinite b = true)
    (hsum : valOf a + valOf b = 0) :
    addCore op a b x y = packF (isZero a && isZero b && signOf a && signOf b) 0 := by
  simp [addCore, isInf_of_isFinite ha, isInf_of_isFinite hb, hsum]

/-- A finite sum is rounded once, with the sign of its value where that is not zero. -/
theorem addCore_of_isFinite {op : FpOp} {a b x y : F32} (ha : isFinite a = true) (hb : isFinite b = true) :
    ∃ s, addCore op a b x y = packF s (roundMag (valOf a + valOf b).natAbs 1) ∧
      signedVal s (valOf a + valOf b).natAbs = valOf a + valOf b := by
  by_cases hsum : valOf a + valOf b = 0
  · exact ⟨_, by rw [addCore_of_sum_eq_zero ha hb hsum, hsum, Int.natAbs_zero, roundMag_zero],
      by simp [hsum, signedVal]⟩
  · exact ⟨_, by simp [addCore, isInf_of_isFinite ha, isInf_of_isFinite hb, hsum], signedVal_natAbs _⟩

theorem addCore_correct {op : FpOp} {a b x y : F32} (ha : isFinite a = true) (hb : isFinite b = true) :
    CorrectlyRounded (addCore op a b x y) (decide (valOf a + valOf b < 0)) (valOf a + valOf b) 1 := by
  obtain ⟨s, hadd, hval⟩ := addCore_of_isFinite (op := op) (x := x) (y := y) ha hb
  have hround := packF_roundMag_correct s (valOf a + valOf b).natAbs one_pos
  have hsigned := CorrectlyRounded.sign_of_value (by norm_num) hround
  rwa [hval, ← hadd] at hsigned

theorem fadd_correct {a b : F32} (ha : isFinite a = true) (hb : isFinite b = true) :
    CorrectlyRounded (fadd a b) (decide (valOf a + valOf b < 0)) (valOf a + valOf b) 1 := by
  rw [fadd_of_not_isNaN (isNaN_of_isFinite ha) (isNaN_of_isFinite hb)]
  exact addCore_correct ha hb

theorem fsub_correct {a b : F32} (ha : isFinite a = true) (hb : isFinite b = true) :
    CorrectlyRounded (fsub a b) (decide (valOf a - valOf b < 0)) (valOf a - valOf b) 1 := by
  rw [fsub_of_not_isNaN (isNaN_of_isFinite ha) (isNaN_of_isFinite hb), sub_eq_add_neg, ← valOf_fneg]
  exact addCore_correct ha (by rwa [isFinite_fneg])

/-- Settles O11: both are `addCore`, which rounds the exact sum once. -/
theorem addAndSubAreCorrectlyRounded : Obligations.AddAndSubAreCorrectlyRounded := by
  intro a b ha hb
  exact ⟨by simpa only [CorrectlyRounded, abs_one, mul_one, decide_eq_true_eq] using fadd_correct ha hb,
    by simpa only [CorrectlyRounded, abs_one, mul_one, decide_eq_true_eq] using fsub_correct ha hb⟩

/-! ### Products -/

theorem fmul_of_isFinite {a b : F32} (ha : isFinite a = true) (hb : isFinite b = true) :
    fmul a b = packF (signOf a ^^ signOf b) (roundMag (unitsOf (magOf a) * unitsOf (magOf b)) (2 ^ 149)) := by
  simp [fmul, isNaN_of_isFinite, isInf_of_isFinite, ha, hb]

theorem valOf_mul_valOf (a b : F32) :
    valOf a * valOf b = signedVal (signOf a ^^ signOf b) (unitsOf (magOf a) * unitsOf (magOf b)) :=
  signedVal_mul ..

theorem fmul_correct {a b : F32} (ha : isFinite a = true) (hb : isFinite b = true) :
    CorrectlyRounded (fmul a b) (decide (valOf a * valOf b < 0)) (valOf a * valOf b) (2 ^ 149) := by
  rw [fmul_of_isFinite ha hb, valOf_mul_valOf]
  refine CorrectlyRounded.sign_of_value (by positivity) ?_
  exact_mod_cast packF_roundMag_correct _ _ (show 0 < 2 ^ 149 by positivity)

/-- Settles O12: the product of the magnitudes is rounded once, with the exclusive or of the signs. -/
theorem mulIsCorrectlyRounded : Obligations.MulIsCorrectlyRounded := by
  intro a b ha hb
  have hscale : |(2 ^ 149 : Int)| = 2 ^ 149 := abs_of_pos (by positivity)
  simpa only [CorrectlyRounded, hscale, decide_eq_true_eq] using fmul_correct ha hb

/-! ### Quotients -/

theorem fdiv_of_isFinite {a b : F32} (ha : isFinite a = true) (hb : isFinite b = true) (hb0 : isZero b = false) :
    fdiv a b = packF (signOf a ^^ signOf b) (roundMag (unitsOf (magOf a) * 2 ^ 149) (unitsOf (magOf b))) := by
  simp [fdiv, isNaN_of_isFinite, isInf_of_isFinite, ha, hb, hb0]

theorem fdiv_correct {a b : F32} (ha : isFinite a = true) (hb : isFinite b = true) (hb0 : isZero b = false) :
    CorrectlyRounded (fdiv a b) (signOf a ^^ signOf b) (valOf a * 2 ^ 149) (valOf b) := by
  have hscaled : valOf a * 2 ^ 149 = signedVal (signOf a) (unitsOf (magOf a) * 2 ^ 149) := by
    rw [signedVal_mul_natCast, valOf_eq_signedVal, Nat.cast_pow, Nat.cast_ofNat]
  rw [fdiv_of_isFinite ha hb hb0, hscaled, valOf_eq_signedVal b]
  exact packF_roundMag_quotient _ _ _ (unitsOf_magOf_pos hb0)

/-- The infinity of the exclusive or of two signs, as the statements write it. -/
theorem packF_xor_infMag (a b : F32) :
    packF (signOf a ^^ signOf b) infMag = if signOf a = signOf b then 0x7F800000#32 else 0xFF800000#32 := by
  rw [packF_infMag]
  cases signOf a <;> cases signOf b <;> rfl

/-- Settles O13: a nonzero divisor scales the rounding, and a zero one has its own two results. -/
theorem divIsCorrectlyRounded : Obligations.DivIsCorrectlyRounded := by
  intro a b ha hb
  refine ⟨fun hb0 => ?_, fun hb0 ha0 => ?_, fun hb0 ha0 => ?_⟩
  · obtain ⟨hfin, hinf, hnear⟩ := fdiv_correct ha hb hb0
    refine ⟨hfin, fun hr => ?_, hnear⟩
    rw [← packF_xor_infMag, packF_infMag]
    exact hinf hr
  · rw [← packF_xor_infMag]
    simp [fdiv, isNaN_of_isFinite, isInf_of_isFinite, ha, hb, hb0, ha0]
  · simp [fdiv, isNaN_of_isFinite, isInf_of_isFinite, ha, hb, hb0, ha0]

end Sys2Proof.Machine
end

section
/-! SUPPORT. The square root (00_scope.md R8, R9): `isqrt` is the integer square root, and half a unit above it stands
for the exact root, because from 2^24 units on every midpoint of two neighbours is a whole number of units. -/

namespace Sys2Proof.Machine

/-! ### The integer square root -/

/-- Each bit keeps the root between `root` and `root + 2^k`. -/
theorem isqrtBits_eq_sqrt (k : Nat) {root n : Nat} (hlow : root * root ≤ n)
    (hhigh : n < (root + 2 ^ k) * (root + 2 ^ k)) : isqrtBits k root n = Nat.sqrt n := by
  induction k generalizing root with
  | zero => exact Nat.eq_sqrt.2 ⟨hlow, hhigh⟩
  | succ k ih =>
    have hhalf : root + 2 ^ (k + 1) = root + 2 ^ k + 2 ^ k := by ring
    rw [hhalf] at hhigh
    rw [isqrtBits]
    by_cases hbit : (root + 2 ^ k) * (root + 2 ^ k) ≤ n
    · simpa only [if_pos hbit] using ih hbit hhigh
    · simpa only [if_neg hbit] using ih hlow (not_le.1 hbit)

theorem isqrt_eq_sqrt (n : Nat) : isqrt n = Nat.sqrt n := by
  refine isqrtBits_eq_sqrt _ (Nat.zero_le n) ?_
  calc n < 2 ^ (n.log2 + 1) := Nat.lt_log2_self
    _ ≤ 2 ^ (n.log2 / 2 + 1 + (n.log2 / 2 + 1)) := Nat.pow_le_pow_right two_pos (by omega)
    _ = (0 + 2 ^ (n.log2 / 2 + 1)) * (0 + 2 ^ (n.log2 / 2 + 1)) := by rw [Nat.zero_add, pow_add]

/-! ### Half units for the exact root -/

/-- Twice the root in whole units, rounded to odd where the root is not whole. -/
def halfUnitsOfRoot (n : Nat) : Nat := 2 * Nat.sqrt n + if Nat.sqrt n * Nat.sqrt n = n then 0 else 1

theorem sq_le_four_mul_of_le_halfUnitsOfRoot {n t : Nat} (ht : Even t) (hle : t ≤ halfUnitsOfRoot n) : t ^ 2 ≤ 4 * n := by
  obtain ⟨u, rfl⟩ := ht
  have hroot : u ≤ Nat.sqrt n := by unfold halfUnitsOfRoot at hle; split at hle <;> omega
  have hsq := Nat.le_sqrt.1 hroot
  calc (u + u) ^ 2 = 4 * (u * u) := by ring
    _ ≤ 4 * n := by omega

theorem four_mul_le_sq_of_halfUnitsOfRoot_le {n t : Nat} (ht : Even t) (hle : halfUnitsOfRoot n ≤ t) : 4 * n ≤ t ^ 2 := by
  obtain ⟨u, rfl⟩ := ht
  have hsq : n ≤ u * u := by
    unfold halfUnitsOfRoot at hle
    split at hle
    next hexact =>
      have hroot : Nat.sqrt n ≤ u := by omega
      calc n = Nat.sqrt n * Nat.sqrt n := hexact.symm
        _ ≤ u * u := Nat.mul_le_mul hroot hroot
    next =>
      have hroot : Nat.sqrt n < u := by omega
      exact (Nat.sqrt_lt.1 hroot).le
  calc 4 * n ≤ 4 * (u * u) := by omega
    _ = (u + u) ^ 2 := by ring

theorem halfUnitsOfRoot_of_sq_eq {n t : Nat} (hsq : t ^ 2 = 4 * n) : halfUnitsOfRoot n = t := by
  have heven : Even t := by
    have hpow : Even (t ^ 2) := ⟨2 * n, by omega⟩
    exact (Nat.even_pow.1 hpow).1
  obtain ⟨u, rfl⟩ := heven
  have hn : n = u * u := by
    have hexpand : (u + u) ^ 2 = 4 * (u * u) := by ring
    omega
  rw [halfUnitsOfRoot, hn, Nat.sqrt_eq, if_pos rfl]
  omega

/-! ### The root rounded -/

/-- The magnitude m is nearest to the root of n, in units: `NearestMag` with the midpoints squared. -/
structure NearestRoot (n m : Nat) : Prop where
  below : ∀ p < m, (unitsOf p + unitsOf m) ^ 2 ≤ 4 * n
  above : ∀ p, m < p → 4 * n ≤ (unitsOf p + unitsOf m) ^ 2
  even_of_tie : ∀ p ≠ m, (unitsOf p + unitsOf m) ^ 2 = 4 * n → m % 2 = 0

/-- The midpoints of neighbours are whole numbers of units from 2^24 on, so the half units lie on the exact root's side of
each. -/
theorem NearestMag.nearestRoot {n m : Nat} (h : NearestMag (halfUnitsOfRoot n) 2 m) (hlarge : 2 ^ 26 ≤ Nat.sqrt n) :
    NearestRoot n m := by
  have hnum : 2 * Nat.sqrt n ≤ halfUnitsOfRoot n := Nat.le_add_right _ _
  have hm : 2 ^ 24 < m := by
    by_contra hsmall
    have habove := h.above (2 ^ 24 + 1) (by omega)
    have hmono : unitsOf m ≤ unitsOf (2 ^ 24 + 1) := unitsOf_strictMono.monotone (by omega)
    have hunits : unitsOf (2 ^ 24 + 1) = 2 ^ 24 + 2 := by decide +kernel
    omega
  refine ⟨fun p hp => ?_, fun p hp => ?_, fun p hp hsq => ?_⟩
  · have hpred := h.below (m - 1) (by omega)
    have heven := (even_unitsOf (show 2 ^ 24 ≤ m - 1 by omega)).add (even_unitsOf hm.le)
    calc (unitsOf p + unitsOf m) ^ 2 ≤ (unitsOf (m - 1) + unitsOf m) ^ 2 :=
          Nat.pow_le_pow_left (Nat.add_le_add_right (unitsOf_strictMono.monotone (Nat.le_sub_one_of_lt hp)) _) 2
      _ ≤ 4 * n := sq_le_four_mul_of_le_halfUnitsOfRoot heven (by omega)
  · have hsucc := h.above p hp
    exact four_mul_le_sq_of_halfUnitsOfRoot_le ((even_unitsOf (hm.trans hp).le).add (even_unitsOf hm.le)) (by omega)
  · exact h.even_of_tie p hp (by rw [halfUnitsOfRoot_of_sq_eq hsq, Nat.mul_comm])

/-- The root of a positive finite value is large enough for `NearestMag.nearestRoot`. -/
theorem le_sqrt_units {m : Nat} (hm : 0 < m) : 2 ^ 26 ≤ Nat.sqrt (unitsOf m * 2 ^ 149) := by
  rw [Nat.le_sqrt, ← pow_add]
  calc 2 ^ (26 + 26) ≤ 1 * 2 ^ 149 := by norm_num
    _ ≤ unitsOf m * 2 ^ 149 := Nat.mul_le_mul_right _ (unitsOf_pos hm)

/-- The root of a finite value is far below the overflow bound. -/
theorem roundMag_root_lt_infMag {m : Nat} (hm : m < infMag) :
    roundMag (halfUnitsOfRoot (unitsOf m * 2 ^ 149)) 2 < infMag := by
  have hunits : unitsOf m < 2 ^ 277 := unitsOf_infMag ▸ unitsOf_strictMono hm
  have hroot : Nat.sqrt (unitsOf m * 2 ^ 149) < 2 ^ 213 := by
    rw [Nat.sqrt_lt, ← pow_add, show 213 + 213 = 277 + 149 by rfl, pow_add]
    exact Nat.mul_lt_mul_of_pos_right hunits (by positivity)
  have hnum : halfUnitsOfRoot (unitsOf m * 2 ^ 149) ≤ 2 * Nat.sqrt (unitsOf m * 2 ^ 149) + 1 := by
    unfold halfUnitsOfRoot; split <;> omega
  rw [roundMag_lt_infMag_iff two_pos]
  omega

theorem fsqrt_of_pos {a : F32} (ha : isFinite a = true) (ha0 : isZero a = false) (hs : signOf a = false) :
    ∃ n m : Nat, valOf a * 2 ^ 149 = n ∧ fsqrt a = packF false m ∧ m < infMag ∧ NearestRoot n m := by
  have hround := roundMag_root_lt_infMag (isFinite_iff.1 ha)
  refine ⟨unitsOf (magOf a) * 2 ^ 149, _, ?_, ?_, hround, (roundMag_nearest two_pos hround).nearestRoot
    (le_sqrt_units (Nat.pos_of_ne_zero (of_decide_eq_false ha0)))⟩
  · rw [valOf_eq_signedVal, hs, signedVal_false, Nat.cast_mul, Nat.cast_pow, Nat.cast_ofNat]
  · simp [fsqrt, isNaN_of_isFinite, isInf_of_isFinite, ha, ha0, hs, isqrt_eq_sqrt, halfUnitsOfRoot]

/-- Settles O14: a positive root is rounded from its half units, and every other operand has its own branch. -/
theorem sqrtIsCorrectlyRounded : Obligations.SqrtIsCorrectlyRounded := by
  intro a
  refine ⟨fun ha ha0 hs => ?_, fun ha0 => ?_, by decide, fun hnan => ?_, fun ha0 hs => ?_⟩
  · obtain ⟨n, m, hn, hroot, hfin, hnear⟩ := fsqrt_of_pos ha ha0 hs
    have hmag : magOf (fsqrt a) = m := by rw [hroot, magOf_packF (hfin.trans infMag_lt)]
    have hsign : signOf (fsqrt a) = false := by rw [hroot, signOf_packF (hfin.trans infMag_lt)]
    refine ⟨by rwa [isFinite_iff, hmag], hsign, fun v _ hvs => ?_⟩
    rw [hn, valOf_eq_signedVal v, hvs, valOf_eq_signedVal (fsqrt a), hsign, hmag, signedVal_false, signedVal_false]
    norm_cast
    rw [unitsOf_strictMono.lt_iff_lt, unitsOf_strictMono.lt_iff_lt, unitsOf_strictMono.injective.eq_iff]
    exact ⟨hnear.below _, hnear.above _, hnear.even_of_tie _⟩
  · simp [fsqrt, isNaN_of_isZero ha0, ha0]
  · simp [fsqrt, hnan]
  · cases hnan : isNaN a <;> simp [fsqrt, hnan, ha0, hs]

end Sys2Proof.Machine
end

section
/-! SUPPORT. The laws of the open functions (00_scope.md R9) and the special operands of the four operations (R8, R12;
log 13). -/

namespace Sys2Proof.Machine

/-! ### The open functions -/

theorem abs_orderKey (a : F32) : |orderKey a| = magOf a := abs_signedVal (signOf a) (magOf a)

/-- A range with finite ends holds finite values only. -/
theorem isFinite_of_inRange {lo hi v : F32} (h : inRange lo hi v = true) (hlo : isFinite lo = true)
    (hhi : isFinite hi = true) : isFinite v = true := by
  simp only [inRange, fle, Bool.and_eq_true, decide_eq_true_eq] at h
  obtain ⟨⟨-, hle⟩, -, hge⟩ := h
  rw [isFinite_iff] at hlo hhi ⊢
  have habs : |orderKey v| ≤ max |orderKey lo| |orderKey hi| := abs_le_max_abs_abs hle hge
  simp only [abs_orderKey] at habs
  omega

/-- What `sin32` and `cos32` share: a raw result outside [-1, 1] gives way to a zero. -/
theorem inRange_ite_zero {x raw : F32} (hx : isFinite x = true) (hx0 : isZero x = false) :
    inRange fNeg1 f1 (if isFinite x && !isZero x && !inRange 0xBF800000#32 0x3F800000#32 raw then 0#32 else raw)
      = true := by
  split
  · decide
  next hkeep => simpa [hx, hx0, fNeg1, f1] using hkeep

theorem inRange_sin32 {x : F32} (hx : isFinite x = true) (hx0 : isZero x = false) :
    inRange fNeg1 f1 (sin32 x) = true := inRange_ite_zero hx hx0

theorem inRange_cos32 {x : F32} (hx : isFinite x = true) (hx0 : isZero x = false) :
    inRange fNeg1 f1 (cos32 x) = true := inRange_ite_zero hx hx0

theorem isFinite_of_inRange_one {v : F32} (h : inRange fNeg1 f1 v = true) : isFinite v = true :=
  isFinite_of_inRange h (by decide) (by decide)

theorem pow32_of_isZero (x : F32) {y : F32} (hy : isZero y = true) : pow32 x y = f1 := if_pos hy

theorem pow32_ten {y : F32} (hy : inRange 0xBF400000#32 0x3F400000#32 y = true) :
    isFinite (pow32 f10 y) = true ∧ flt f0 (pow32 f10 y) = true := by
  unfold pow32
  split
  · decide
  · split
    · decide
    next hraw => simpa [f10, f0, hy] using hraw

/-- Settles O15: each operation keeps the raw result only inside its law. -/
theorem openFunctionsKeepTheirLaws : Obligations.OpenFunctionsKeepTheirLaws :=
  ⟨fun x _ hy => pow32_of_isZero x hy,
    fun _ hx hx0 => ⟨isFinite_of_inRange_one (inRange_sin32 hx hx0), inRange_sin32 hx hx0,
      isFinite_of_inRange_one (inRange_cos32 hx hx0), inRange_cos32 hx hx0⟩,
    fun _ hy => pow32_ten hy⟩

/-! ### NaN, infinite and zero operands -/

/-- The zero of the exclusive or of two signs, as the statements write it. -/
theorem packF_xor_zero (a b : F32) :
    packF (signOf a ^^ signOf b) 0 = if signOf a = signOf b then 0#32 else 0x80000000#32 := by
  rw [packF_zero]
  cases signOf a <;> cases signOf b <;> rfl

theorem isNaN_of_isNaN_operand {a b : F32} (h : isNaN a = true ∨ isNaN b = true) :
    isNaN (fadd a b) = true ∧ isNaN (fsub a b) = true ∧ isNaN (fmul a b) = true ∧ isNaN (fdiv a b) = true := by
  have hor : (isNaN a || isNaN b) = true := by simpa using h
  simp [fadd, fsub, fmul, fdiv, hor]

/-! #### Sums -/

theorem addCore_of_isInf {op : FpOp} {a b x y : F32} (ha : isInf a = true) (hb : isFinite b = true ∨ b = a) :
    addCore op a b x y = a ∧ addCore op b a x y = a := by
  rcases hb with hb | rfl
  · simp [addCore, ha, isInf_of_isFinite hb]
  · simp [addCore, ha]

theorem fadd_of_isInf {a b : F32} (ha : isInf a = true) (hb : isFinite b = true ∨ b = a) :
    fadd a b = a ∧ fadd b a = a := by
  have hbnan : isNaN b = false := hb.elim isNaN_of_isFinite fun hba => hba ▸ isNaN_of_isInf ha
  rw [fadd_of_not_isNaN (isNaN_of_isInf ha) hbnan, fadd_of_not_isNaN hbnan (isNaN_of_isInf ha)]
  exact ⟨(addCore_of_isInf ha hb).1, (addCore_of_isInf ha hb).2⟩

theorem isNaN_fadd_fneg_of_isInf {a : F32} (ha : isInf a = true) : isNaN (fadd a (fneg a)) = true := by
  rw [fadd_of_not_isNaN (isNaN_of_isInf ha) (by rw [isNaN_fneg]; exact isNaN_of_isInf ha)]
  simp [addCore, ha]

/-- The operation and its operands, as `addCore` is told them, decide only the bits of a NaN. -/
theorem addCore_eq_or_isNaN (op op' : FpOp) (a b x y x' y' : F32) :
    addCore op a b x y = addCore op' a b x' y' ∨
    isNaN (addCore op a b x y) = true ∧ isNaN (addCore op' a b x' y') = true := by
  cases ha : isInf a
  · exact Or.inl (by simp [addCore, ha])
  cases hopp : isInf b && signOf a != signOf b
  · exact Or.inl (by simp only [addCore, ha, hopp, if_true, Bool.false_eq_true, if_false])
  · exact Or.inr (by simp only [addCore, ha, hopp, if_true, isNaN_nanResult, and_self])

theorem fsub_eq_fadd_fneg_or_isNaN {a b : F32} (ha : isNaN a = false) (hb : isNaN b = false) :
    fsub a b = fadd a (fneg b) ∨ isNaN (fsub a b) = true ∧ isNaN (fadd a (fneg b)) = true := by
  rw [fsub_of_not_isNaN ha hb, fadd_of_not_isNaN ha (by rwa [isNaN_fneg])]
  exact addCore_eq_or_isNaN ..

theorem eq_negZero_iff (a : F32) : a = 0x80000000#32 ↔ isZero a = true ∧ signOf a = true := by
  rw [isZero_iff]
  constructor
  · rintro rfl; decide
  · rintro ⟨hmag, hsign⟩
    exact eq_of_signOf_of_magOf hsign hmag

theorem fadd_of_sum_eq_zero {a b : F32} (ha : isFinite a = true) (hb : isFinite b = true)
    (hsum : valOf a + valOf b = 0) :
    fadd a b = if a = 0x80000000#32 ∧ b = 0x80000000#32 then 0x80000000#32 else 0#32 := by
  rw [fadd_of_not_isNaN (isNaN_of_isFinite ha) (isNaN_of_isFinite hb), addCore_of_sum_eq_zero ha hb hsum, packF_zero]
  refine if_congr ?_ rfl rfl
  simp only [Bool.and_eq_true, eq_negZero_iff]
  tauto

/-! #### Products -/

theorem isNaN_fmul_of_isInf_of_isZero {a b : F32} (ha : isInf a = true) (hb : isZero b = true) :
    isNaN (fmul a b) = true ∧ isNaN (fmul b a) = true := by
  simp [fmul, isNaN_of_isInf, isNaN_of_isZero, ha, hb]

theorem fmul_of_isInf {a b : F32} (ha : isInf a = true) (hb : isNaN b = false) (hb0 : isZero b = false) :
    fmul a b = packF (signOf a ^^ signOf b) infMag ∧ fmul b a = packF (signOf a ^^ signOf b) infMag := by
  simp [fmul, isNaN_of_isInf, isZero_of_isInf, ha, hb, hb0, Bool.xor_comm]

/-! #### Quotients -/

theorem isNaN_fdiv_of_isInf {a b : F32} (ha : isInf a = true) (hb : isInf b = true) : isNaN (fdiv a b) = true := by
  simp [fdiv, isNaN_of_isInf, ha, hb]

theorem fdiv_of_isInf {a b : F32} (ha : isInf a = true) (hb : isFinite b = true) :
    fdiv a b = packF (signOf a ^^ signOf b) infMag ∧ fdiv b a = packF (signOf a ^^ signOf b) 0 := by
  simp [fdiv, isNaN_of_isInf, isNaN_of_isFinite, isInf_of_isFinite, ha, hb, Bool.xor_comm]

/-- Packed with a rounded magnitude, a sign stays. -/
theorem signOf_packF_roundMag (s : Bool) (num den : Nat) : signOf (packF s (roundMag num den)) = s :=
  signOf_packF (lt_of_le_of_lt (roundMag_le_infMag num den) infMag_lt)

/-- Settles O54: each case of IEEE 754's is one branch of an operation. -/
theorem specialOperandsFollowIeee : Obligations.SpecialOperandsFollowIeee := by
  intro a b
  simp only [← packF_xor_infMag, ← packF_xor_zero]
  refine ⟨isNaN_of_isNaN_operand, fadd_of_isInf, ?_, fsub_eq_fadd_fneg_or_isNaN, fun ha hb0 => ?_, fmul_of_isInf,
    isNaN_fdiv_of_isInf, fdiv_of_isInf, fadd_of_sum_eq_zero, fun ha hb => ⟨?_, fun hb0 => ?_⟩⟩
  · rintro ha rfl
    exact isNaN_fadd_fneg_of_isInf ha
  · obtain ⟨hmul, hmul'⟩ := isNaN_fmul_of_isInf_of_isZero ha hb0
    exact ⟨hmul, hmul', (fdiv_of_isInf ha (isFinite_of_isZero hb0)).2⟩
  · rw [fmul_of_isFinite ha hb, signOf_packF_roundMag]
  · rw [fdiv_of_isFinite ha hb hb0, signOf_packF_roundMag]

end Sys2Proof.Machine
end

section
/-! SUPPORT. The read-only tables (10_state.md R21 to R23), and the shared operations of the commands: the clamp lands in its
range, and the sample loop keeps what each processed sample keeps. -/

namespace Sys2Proof.Machine

/-! ### The read-only tables -/

/-- Settles O16, by computing the value of each of the nine entries. -/
theorem frequencyTableIsExact : Obligations.FrequencyTableIsExact := by
  unfold Obligations.FrequencyTableIsExact
  decide +kernel

/-- Settles O17: the quality factor is chosen by the topology. -/
theorem topologyAndQualityByBand : Obligations.TopologyAndQualityByBand := by
  intro b
  refine ⟨rfl, ?_⟩
  unfold qf
  cases topo b <;> rfl

/-! ### The clamp -/

theorem fle_of_flt_eq_false {a b : F32} (ha : isNaN a = false) (hb : isNaN b = false) (h : flt a b = false) :
    fle b a = true := by
  simpa [flt, fle, ha, hb] using h

theorem isNaN_of_inRange {lo hi v : F32} (h : inRange lo hi v = true) : isNaN v = false := by
  simp only [inRange, fle, Bool.and_eq_true, Bool.not_eq_true'] at h
  obtain ⟨⟨⟨-, hv⟩, -⟩, -⟩ := h
  exact hv

/-- Cutting a number off at the ends of a range lands in the range (R101, R124). -/
theorem inRange_cutoff {lo hi v : F32} (hlo : inRange lo hi lo = true) (hhi : inRange lo hi hi = true)
    (hv : isNaN v = false) : inRange lo hi (if flt v lo then lo else if fgt v hi then hi else v) = true := by
  cases hbelow : flt v lo with
  | true => exact hlo
  | false =>
    cases habove : fgt v hi with
    | true => exact hhi
    | false =>
      exact Bool.and_eq_true_iff.2 ⟨fle_of_flt_eq_false hv (isNaN_of_inRange hlo) hbelow,
        fle_of_flt_eq_false (isNaN_of_inRange hhi) hv habove⟩

theorem State.clamp_inRange (s : State) (g : F32) : inRange fNeg30 f30 (s.clamp g).1 = true := by
  unfold State.clamp
  cases hg : isNaN g with
  | true => exact s.draw_inRange (by decide)
  | false => exact inRange_cutoff (by decide) (by decide) hg

/-! ### The sample loop -/

/-- What every processed sample of the frames keeps, the sample loop keeps. -/
theorem State.processFrames_keeps (P : State → Prop) {base nchan : Nat} (count : Nat) {f : Nat}
    (h : ∀ f', f' < f + count → ∀ c ∈ processedChannels nchan, ∀ s : State,
      P s → P (s.processSample base nchan f' c)) {s : State} (hs : P s) :
    P (State.processFrames base nchan count f s) := by
  induction count generalizing f s with
  | zero => exact hs
  | succ n ih =>
    refine ih (fun f' hf' => h f' (by omega)) ?_
    exact foldl_keeps_mem P _ _ (h f (by omega)) s hs

theorem State.MemSound.processSample {s : State} (h : s.MemSound) {base nchan f : Nat} {c : Channel}
    (ha : sampleAddr base f c nchan < 2 ^ 32) : (s.processSample base nchan f c).MemSound := by
  obtain ⟨v, hv⟩ := s.processSample_mem base nchan f c
  obtain ⟨hwf, hspace⟩ := h
  rw [State.MemSound, hv]
  exact ⟨Memory.wf_writeWord hwf _ v, Memory.inSpace_writeWord hspace ha v⟩

/-- The sample words of an admitted buffer lie inside the sample memory; an empty region has none (R45, R47). -/
theorem State.sampleAddr_lt_of_bufOk {s : State} {base n nchan f : Nat} {c : Channel}
    (hbuf : 0 < n * nchan → s.bufOk base (n * nchan) = true) (hf : f < n) (hc : c ∈ processedChannels nchan) :
    sampleAddr base f c nchan < 2 ^ 32 := by
  have hregion : 0 < n * nchan := Nat.mul_pos (by omega) (Nat.zero_lt_of_lt (index_lt_of_mem_processed hc))
  exact lt_of_lt_of_le (sampleAddr_lt hf hc) (State.bufOk_le (hbuf hregion))

theorem State.MemSound.processFrames {s : State} (h : s.MemSound) {base n nchan : Nat}
    (hbuf : 0 < n * nchan → s.bufOk base (n * nchan) = true) :
    (State.processFrames base nchan n 0 s).MemSound :=
  State.processFrames_keeps State.MemSound n
    (fun _ hf _ hc _ ht => ht.processSample (State.sampleAddr_lt_of_bufOk hbuf (by omega) hc)) h

end Sys2Proof.Machine
end

section
/-! SUPPORT. What each command can make of the registers and the memory (10_state.md R32), said once as plain record updates
(`Effect`, `exec_next_effect`). -/

namespace Sys2Proof.Machine

/-! ### The effect of a command -/

/-- What command `i` can make of `s` before its response is recorded, with the guards under which it does (R32). -/
inductive Effect (s : State) : Instr → State → Prop
  | init (fs : F32) (k : Vector (Stereo Coef) 9) (hk : ∀ (b : Band) c, (k[b.val]).get c = bandCoef b fs (s.gainAt b)) :
    Effect s (.init fs) { s with fs := some fs, initd := true, coef := k }
  | setgain (w : BitVec 4) (g : F32) (b : Band) (hb : bandIndex w = some b) (k : Vector (Stereo Coef) 9)
      (hk : ∀ (b' : Band) c, (k[b'.val]).get c =
        if b' = b ∧ s.initd = true then bandCoef b s.rate (s.clamp g).1 else s.coefAt b' c) :
    Effect s (.setgain w g)
      { s with gain := s.gain.set b.val (s.clamp g).1, coef := k, draws := (s.clamp g).2.draws }
  | setgainInert (w : BitVec 4) (g : F32) (hw : bandIndex w = none) : Effect s (.setgain w g) s
  | getgain (w : BitVec 4) : Effect s (.getgain w) s
  | seten (e : Bool) : Effect s (.seten e) { s with en := e }
  | geten : Effect s .geten s
  | reset (k : Vector (Stereo Coef) 9)
      (hk : ∀ (b : Band) c, (k[b.val]).get c = if s.initd then bandCoef b s.rate f0 else s.coefAt b c) :
    Effect s .reset
      { s with gain := Vector.replicate 9 f0, coef := k, hist := Vector.replicate 9 ⟨Hist.zero, Hist.zero⟩ }
  | processInactive (base nframes nchan : Word) (hs : s.active = false) : Effect s (.process base nframes nchan) s
  | process (base nframes nchan : Word) (hs : s.active = true)
      (hbuf : 0 < nframes.toNat * nchan.toNat → s.bufOk base.toNat (nframes.toNat * nchan.toNat) = true)
      (hist : Vector (Stereo Hist) 9) (mem : Memory) (draws : Nat)
      (hrun : State.processFrames base.toNat nchan.toNat nframes.toNat 0 s =
        { s with hist := hist, mem := mem, draws := draws }) :
    Effect s (.process base nframes nchan) { s with hist := hist, mem := mem, draws := draws }

theorem effect_init (fs : F32) (s : State) :
    Effect s (.init fs) ({ s with fs := some fs, initd := true } : State).tuneAll := by
  rw [State.tuneAll_eq]
  exact .init fs _ fun b c => State.coefAt_tuneAll _ b c

theorem effect_setgain {w : BitVec 4} {b : Band} (hb : bandIndex w = some b) (g : F32) (s : State) :
    Effect s (.setgain w g) (((s.clamp g).2.setGain b (s.clamp g).1).whenInit (fun t => t.tune b)) := by
  rw [State.clamp_eq]
  refine State.whenInit_cases _ _ _ (fun hinit => ?_) (fun hinit => ?_)
  · refine .setgain w g b hb _ fun b' c => (State.coefAt_tune (State.setGain _ b _) b b' c).trans ?_
    rw [State.gainAt_setGain_same]
    exact if_congr (and_iff_left hinit).symm rfl rfl
  · refine .setgain w g b hb s.coef fun b' c => (if_neg ?_).symm
    rintro ⟨-, hs⟩
    cases hs.symm.trans hinit

theorem State.zeroGains_eq_replicate (s : State) : s.zeroGains = { s with gain := Vector.replicate 9 f0 } := by
  have hgain : s.zeroGains.gain = Vector.replicate 9 f0 :=
    Vector.ext fun i hi => (s.gainAt_zeroGains ⟨i, hi⟩).trans (Vector.getElem_replicate _).symm
  rw [← hgain]
  exact s.zeroGains_eq

theorem State.clearHist_eq_replicate (s : State) :
    s.clearHist = { s with hist := Vector.replicate 9 ⟨Hist.zero, Hist.zero⟩ } := by
  have hhist : s.clearHist.hist = Vector.replicate 9 ⟨Hist.zero, Hist.zero⟩ := Vector.ext fun i hi => by
    rw [Vector.getElem_replicate]
    refine Stereo.ext_get fun c => (s.histAt_clearHist ⟨i, hi⟩ c).trans ?_
    cases c <;> rfl
  rw [← hhist]
  exact s.clearHist_eq

theorem effect_reset (s : State) : Effect s .reset (s.zeroGains.whenInit State.tuneAll).clearHist := by
  rw [State.clearHist_eq_replicate, State.zeroGains_eq_replicate]
  refine State.whenInit_cases _ _ (fun u => Effect s .reset { u with hist := _ }) (fun hinit => ?_) (fun hinit => ?_)
  · rw [State.tuneAll_eq]
    refine .reset _ fun b c => (State.coefAt_tuneAll _ b c).trans ?_
    have hgain : (Vector.replicate 9 f0)[b.val] = f0 := Vector.getElem_replicate _
    exact (congrArg (bandCoef b s.rate) hgain).trans (if_pos hinit).symm
  · refine .reset s.coef fun b c => (if_neg fun hs => ?_).symm
    cases hs.symm.trans hinit

/-- A command that completes has its effect and then records its response. -/
theorem exec_next_effect {i : Instr} {s t : State} (h : exec i s = .next t) :
    ∃ u w, t = u.respond ⟨w, .ok⟩ ∧ Effect s i u := by
  cases i with
  | init fs => exact ⟨_, _, (Host.Outcome.next.inj h).symm, effect_init fs s⟩
  | setgain w g =>
    simp only [exec, execSetgain] at h
    cases hw : bandIndex w with
    | none =>
      rw [hw] at h
      exact ⟨_, _, (Host.Outcome.next.inj h).symm, .setgainInert w g hw⟩
    | some b =>
      rw [hw] at h
      exact ⟨_, _, (Host.Outcome.next.inj h).symm, effect_setgain hw g s⟩
  | getgain w =>
    simp only [exec, execGetgain] at h
    cases hw : bandIndex w <;> rw [hw] at h <;> exact ⟨_, _, (Host.Outcome.next.inj h).symm, .getgain w⟩
  | seten e => exact ⟨_, _, (Host.Outcome.next.inj h).symm, .seten e⟩
  | geten => exact ⟨_, _, (Host.Outcome.next.inj h).symm, .geten⟩
  | reset => exact ⟨_, _, (Host.Outcome.next.inj h).symm, effect_reset s⟩
  | process base nframes nchan =>
    obtain ⟨hs, hexec⟩ | ⟨-, -, -, hexec⟩ | ⟨hs, hbuf, hexec⟩ := execProcess_cases base nframes nchan s
    · exact ⟨s, _, Host.Outcome.next.inj (h.symm.trans hexec), .processInactive _ _ _ hs⟩
    · cases h.symm.trans hexec
    · refine ⟨_, _, Host.Outcome.next.inj (h.symm.trans hexec), ?_⟩
      have hrun := State.processFrames_same base.toNat nchan.toNat nframes.toNat 0 s
      rw [hrun]
      exact .process _ _ _ hs hbuf _ _ _ hrun

/-! ### Who writes what -/

@[simp] theorem State.gainAt_respond (s : State) (r : Response) (b : Band) : (s.respond r).gainAt b = s.gainAt b :=
  State.gainAt_congr (s.respond_gain r) b

@[simp] theorem State.coefAt_respond (s : State) (r : Response) (b : Band) (c : Channel) :
    (s.respond r).coefAt b c = s.coefAt b c := State.coefAt_congr (s.respond_coef r) b c

/-- Settles O31: each clause asks which effects differ from `s` in its field. -/
theorem onlyTheseCommandsWrite : Obligations.OnlyTheseCommandsWrite := by
  intro i s t h
  obtain ⟨u, w, rfl, heffect⟩ := exec_next_effect h
  simp only [State.gainAt_respond, State.coefAt_respond, State.respond_en, State.respond_initd, State.respond_fs,
    State.respond_hist, State.respond_mem]
  refine ⟨fun b hb => ?_, fun hen => ?_, fun hinitd => ?_, fun hfs => ?_, fun b c hbc => ?_, fun hhist => ?_,
    fun hmem => ?_⟩
  · cases heffect with
    | setgain w g b' hw =>
      have hband : b = b' := by
        by_contra hne
        exact hb (s.gainAt_setGain_other hne _)
      exact .inr ⟨w, g, rfl, hband ▸ hw⟩
    | reset => exact .inl rfl
    | _ => exact absurd rfl hb
  · cases heffect with
    | seten e => exact ⟨e, rfl⟩
    | _ => exact absurd rfl hen
  · cases heffect with
    | init fs => exact ⟨fs, rfl⟩
    | _ => exact absurd rfl hinitd
  · cases heffect with
    | init fs => exact ⟨fs, rfl⟩
    | _ => exact absurd rfl hfs
  · cases heffect with
    | init fs => exact .inr (.inl ⟨fs, rfl⟩)
    | setgain w g b' hw k hk =>
      have hband : b = b' := by
        by_contra hne
        exact hbc ((hk b c).trans (if_neg fun h => hne h.1))
      exact .inr (.inr ⟨w, g, rfl, hband ▸ hw⟩)
    | reset => exact .inl rfl
    | _ => exact absurd rfl hbc
  · cases heffect with
    | reset => exact .inl rfl
    | process base nframes nchan => exact .inr ⟨base, nframes, nchan, rfl⟩
    | _ => exact absurd rfl hhist
  · cases heffect with
    | process base nframes nchan => exact ⟨base, nframes, nchan, rfl⟩
    | _ => exact absurd rfl hmem

end Sys2Proof.Machine
end

section
/-! SUPPORT. The invariant of the model (10_state.md R37, R34; 20_memory.md R40, R57), split into what a command can touch
(`State.BlockInv`) and the ports' discipline, and each part kept by every step. -/

namespace Sys2Proof.Machine

/-! ### The block and its memory -/

/-- `State.Inv` without the ports: R37 and the memory's form. -/
structure State.BlockInv (s : State) : Prop where
  gains  : s.GainsClamped
  coefs  : s.CoefsPaired
  ident  : s.IdentityUntilInit
  rate   : s.RateKnown
  memory : s.MemSound

theorem State.inv_iff (s : State) : s.Inv ↔ s.BlockInv ∧ s.PortsOrderly :=
  ⟨fun h => ⟨⟨h.gains, h.coefs, h.ident, h.rate, h.memory⟩, h.ports⟩,
    fun ⟨h, hports⟩ => ⟨h.gains, h.coefs, h.ident, h.rate, h.memory, hports⟩⟩

theorem State.BlockInv.of_same {s t : State} (h : s.BlockInv) (hregs : s.RegsSame t) (hmem : t.mem = s.mem) :
    t.BlockInv := by
  obtain ⟨hgain, -, hinitd, hfs, hcoef, -⟩ := hregs
  refine ⟨fun b => ?_, fun b => ?_, fun hi b c => ?_, fun hi => ?_, ?_⟩
  · rw [State.gainAt_congr hgain]; exact h.gains b
  · rw [State.coefAt_congr hcoef, State.coefAt_congr hcoef]; exact h.coefs b
  · rw [State.coefAt_congr hcoef]; exact h.ident (hinitd ▸ hi) b c
  · rw [hfs]; exact h.rate (hinitd ▸ hi)
  · rw [State.MemSound, hmem]; exact h.memory

theorem Effect.blockInv {s u : State} {i : Instr} (h : Effect s i u) (hs : s.BlockInv) : u.BlockInv := by
  obtain ⟨hgains, hcoefs, hident, hrate, hmem⟩ := hs
  cases h with
  | init fs k hk =>
    exact ⟨hgains, fun b => (hk b .ch0).trans (hk b .ch1).symm, nofun, fun _ => Option.some_ne_none fs, hmem⟩
  | setgain w g b hb k hk =>
    refine ⟨fun b' => ?_, fun b' => (hk b' .ch0).trans (Eq.trans ?_ (hk b' .ch1).symm), fun hi b' c => ?_, hrate, hmem⟩
    · by_cases hband : b' = b
      · subst hband
        exact (congrArg (inRange fNeg30 f30) (s.gainAt_setGain_same b' _)).trans (s.clamp_inRange g)
      · exact (congrArg (inRange fNeg30 f30) (s.gainAt_setGain_other hband _)).trans (hgains b')
    · rw [hcoefs b']
    · refine ((hk b' c).trans (if_neg ?_)).trans (hident hi b' c)
      rintro ⟨-, hs⟩
      cases hs.symm.trans hi
  | seten e => exact ⟨hgains, hcoefs, hident, hrate, hmem⟩
  | reset k hk =>
    refine ⟨fun b => ?_, fun b => (hk b .ch0).trans (Eq.trans ?_ (hk b .ch1).symm), fun hi b c => ?_, hrate, hmem⟩
    · have hzero : (Vector.replicate 9 f0)[b.val] = f0 := Vector.getElem_replicate _
      exact (congrArg (inRange fNeg30 f30) hzero).trans (by decide)
    · rw [hcoefs b]
    · exact ((hk b c).trans (if_neg fun hs => by cases hs.symm.trans hi)).trans (hident hi b c)
  | process base nframes nchan _ hbuf hist mem draws hrun =>
    have hsound := hmem.processFrames hbuf
    rw [hrun] at hsound
    exact ⟨hgains, hcoefs, hident, hrate, hsound⟩
  | setgainInert | getgain | geten | processInactive => exact ⟨hgains, hcoefs, hident, hrate, hmem⟩

theorem State.respond_regsSame (s : State) (r : Response) : s.RegsSame (s.respond r) := by simp [State.RegsSame]

theorem State.accept_regsSame (s : State) (p : PortId) (m : Message) : s.RegsSame (s.accept p m) := by
  simp [State.RegsSame]

theorem State.tick_setPort_regsSame (s : State) (p : PortId) (q : Port) : s.RegsSame (s.tick.setPort p q) := by
  simp [State.RegsSame]

theorem performMessage_blockInv {p : PortId} {m : Message} {s t : State} (h : performMessage p m s = .next t)
    (hs : s.BlockInv) : t.BlockInv := by
  have haccept : (s.accept p m).BlockInv := hs.of_same (s.accept_regsSame p m) (s.accept_mem p m)
  obtain ⟨i, -, hexec⟩ | ⟨-, -, rfl⟩ := performMessage_cases h
  · obtain ⟨u, w, rfl, heffect⟩ := exec_next_effect hexec
    exact (heffect.blockInv haccept).of_same (u.respond_regsSame _) (u.respond_mem _)
  · exact haccept.of_same (State.respond_regsSame _ _) (State.respond_mem _ _)

theorem step_blockInv {s t : State} (h : step s = .next t) (hs : s.BlockInv) : t.BlockInv := by
  have hsetPort (p : PortId) (q : Port) : (s.tick.setPort p q).BlockInv :=
    hs.of_same (s.tick_setPort_regsSame p q) (by simp)
  obtain ⟨-, rfl⟩ | ⟨p, m, rest, -, -, -, rfl⟩ | ⟨p, r, -, -, rfl⟩ | ⟨p, m, -, -, hperform⟩ := step_cases h
  · exact hs
  · exact hsetPort p _
  · exact hsetPort p _
  · exact performMessage_blockInv hperform (hs.of_same ⟨rfl, rfl, rfl, rfl, rfl, rfl⟩ rfl)

/-! ### The ports -/

theorem State.portsOrderly_iff (s : State) : s.PortsOrderly ↔ ∀ p, (s.port p).Orderly :=
  ⟨fun ⟨hctrl, haudio⟩ p => by cases p; exacts [hctrl, haudio], fun h => ⟨h .ctrl, h .audio⟩⟩

theorem State.PortsOrderly.setPort {s : State} (h : s.PortsOrderly) (p : PortId) {q : Port} (hq : q.Orderly) :
    (s.setPort p q).PortsOrderly := by
  obtain ⟨hctrl, haudio⟩ := h
  cases p
  · exact ⟨hq, haudio⟩
  · exact ⟨hctrl, hq⟩

theorem Port.free_iff (q : Port) : q.free = true ↔ q.state = .idle ∧ q.pending = none ∧ q.undelivered = none := by
  simp [Port.free, and_assoc]

theorem State.HostSame.serving {s t : State} : s.HostSame t → t.serving = s.serving :=
  fun ⟨_, _, _, hserving, _⟩ => hserving

/-- A message that completes ends in its response, on the ports as they were when it was accepted. -/
theorem performMessage_next_respond {p : PortId} {m : Message} {s t : State} (h : performMessage p m s = .next t) :
    ∃ u r, t = u.respond r ∧ (s.accept p m).HostSame u := by
  obtain ⟨i, -, hexec⟩ | ⟨-, -, rfl⟩ := performMessage_cases h
  · obtain ⟨u, w, ht, hhost⟩ := exec_next_respond hexec
    exact ⟨u, _, ht, hhost⟩
  · exact ⟨_, _, rfl, State.HostSame.refl _⟩

theorem performMessage_portsOrderly {p : PortId} {m : Message} {s t : State} (h : performMessage p m s = .next t)
    (hs : s.PortsOrderly) : t.PortsOrderly := by
  obtain ⟨u, r, rfl, hhost⟩ := performMessage_next_respond h
  obtain rfl : u.serving = p := hhost.serving
  rw [State.portsOrderly_iff] at hs ⊢
  intro p'
  by_cases hp : p' = u.serving
  · rw [hp, State.port_respond_serving, hhost.port, State.port_accept_same]
    exact ⟨rfl, .inl rfl⟩
  · rw [State.port_respond_other _ hp, hhost.port, State.port_accept_other _ hp]
    exact hs p'

theorem step_portsOrderly {s t : State} (h : step s = .next t) (hs : s.PortsOrderly) : t.PortsOrderly := by
  have htick : s.tick.PortsOrderly := hs
  obtain ⟨-, rfl⟩ | ⟨p, m, rest, -, hfree, -, rfl⟩ | ⟨p, r, -, -, rfl⟩ | ⟨p, m, -, -, hperform⟩ := step_cases h
  · exact hs
  · obtain ⟨hidle, -, hundelivered⟩ := (Port.free_iff _).1 hfree
    exact htick.setPort p ⟨hidle, .inr hundelivered⟩
  · exact htick.setPort p ⟨(s.portsOrderly_iff.1 hs p).1, .inr rfl⟩
  · exact performMessage_portsOrderly hperform htick

/-- Settles O47: a step keeps the block's part by the effect of the command, and the ports' part by the move. -/
theorem everyStepKeepsTheInvariant : Obligations.EveryStepKeepsTheInvariant := by
  intro s t hs h
  rw [State.inv_iff] at hs ⊢
  exact ⟨step_blockInv h hs.1, step_portsOrderly h hs.2⟩

end Sys2Proof.Machine
end

section
/-! SUPPORT. The sample memory and its sharing (20_memory.md R41 to R47, R57): words as their four bytes, the sample words of a
buffer, the one fault of the block, the agents' moves and the launch's choice among the moves. -/

namespace Sys2Proof.Machine

/-! ### Words -/

/-- Byte `k` of a word just written is the word's byte `k`, least significant first (R42). -/
theorem Memory.read_writeWord_same {m : Memory} (h : m.wf = true) (a : Nat) (v : Word) {k : Nat} (hk : k < 4) :
    (m.writeWord a v).read (4 * a + k) = v.extractLsb' (8 * k) 8 := by
  have h0 := Memory.wf_write h (4 * a) (v.extractLsb' 0 8)
  have h1 := Memory.wf_write h0 (4 * a + 1) (v.extractLsb' 8 8)
  have h2 := Memory.wf_write h1 (4 * a + 2) (v.extractLsb' 16 8)
  unfold Memory.writeWord
  match k, hk with
  | 0, _ =>
    rw [Memory.read_write_other (by omega), Memory.read_write_other (by omega), Memory.read_write_other (by omega)]
    exact Memory.read_write_same h _ _
  | 1, _ =>
    rw [Memory.read_write_other (by omega), Memory.read_write_other (by omega)]
    exact Memory.read_write_same h0 _ _
  | 2, _ =>
    rw [Memory.read_write_other (by omega)]
    exact Memory.read_write_same h1 _ _
  | 3, _ => exact Memory.read_write_same h2 _ _

theorem append_bytes (v : Word) :
    v.extractLsb' 24 8 ++ v.extractLsb' 16 8 ++ v.extractLsb' 8 8 ++ v.extractLsb' 0 8 = v := by
  rw [BitVec.extractLsb'_append_extractLsb'_eq_extractLsb' (start₂ := 24) (start₁ := 16) rfl,
    BitVec.extractLsb'_append_extractLsb'_eq_extractLsb' (start₂ := 16) (start₁ := 8) rfl,
    BitVec.extractLsb'_append_extractLsb'_eq_extractLsb' (start₂ := 8) (start₁ := 0) rfl]
  exact BitVec.extractLsb'_eq_self

theorem Memory.readWord_writeWord_same {m : Memory} (h : m.wf = true) (a : Nat) (v : Word) :
    (m.writeWord a v).readWord a = v := by
  have hbyte (k : Nat) (hk : k < 4) := Memory.read_writeWord_same h a v hk
  have hbyte0 : (m.writeWord a v).read (4 * a) = v.extractLsb' 0 8 := hbyte 0 (by decide)
  rw [Memory.readWord, hbyte 3 (by decide), hbyte 2 (by decide), hbyte 1 (by decide), hbyte0]
  exact append_bytes v

theorem Memory.readWord_writeWord_other (m : Memory) {a a' : Nat} (h : a' ≠ a) (v : Word) :
    (m.writeWord a v).readWord a' = m.readWord a' := by
  have hbyte (k : Nat) (hk : k < 4) : (m.writeWord a v).read (4 * a' + k) = m.read (4 * a' + k) :=
    Memory.read_writeWord_other (by omega) v
  have hbyte0 : (m.writeWord a v).read (4 * a') = m.read (4 * a') := hbyte 0 (by decide)
  rw [Memory.readWord, hbyte 3 (by decide), hbyte 2 (by decide), hbyte 1 (by decide), hbyte0, Memory.readWord]

/-- Settles O40: a word is its four bytes, and a byte write is read back and touches no other byte. -/
theorem wordReadsBackAsWritten : Obligations.WordReadsBackAsWritten := fun s a v hwf =>
  ⟨Memory.readWord_writeWord_same hwf a v, fun _ hk => Memory.read_writeWord_same hwf a v hk,
    fun _ ha => s.mem.readWord_writeWord_other ha v⟩

/-! ### Sample words -/

theorem Channel.index_injective : Function.Injective Channel.index := by
  intro c c' h
  cases c <;> cases c' <;> simp [Channel.index] at h ⊢

theorem le_sampleAddr (base f : Nat) (c : Channel) (nchan : Nat) : base ≤ sampleAddr base f c nchan := by
  unfold sampleAddr; omega

/-- Frame and channel are quotient and remainder of the word's offset by the channel count (R41). -/
theorem sampleAddr_offset_div_mod {base f nchan : Nat} {c : Channel} (hc : c ∈ processedChannels nchan) :
    (sampleAddr base f c nchan - base) / nchan = f ∧ (sampleAddr base f c nchan - base) % nchan = c.index := by
  have hlt := index_lt_of_mem_processed hc
  have hoffset : sampleAddr base f c nchan - base = c.index + nchan * f := by
    rw [sampleAddr, Nat.mul_comm f]; omega
  rw [hoffset, Nat.add_mul_div_left _ _ (by omega), Nat.add_mul_mod_self_left, Nat.div_eq_of_lt hlt, Nat.mod_eq_of_lt hlt]
  exact ⟨Nat.zero_add f, rfl⟩

theorem sampleAddr_inj {base f f' nchan : Nat} {c c' : Channel} (hc : c ∈ processedChannels nchan)
    (hc' : c' ∈ processedChannels nchan) (h : sampleAddr base f c nchan = sampleAddr base f' c' nchan) :
    f = f' ∧ c = c' := by
  obtain ⟨hf, hindex⟩ := sampleAddr_offset_div_mod (base := base) (f := f) hc
  obtain ⟨hf', hindex'⟩ := sampleAddr_offset_div_mod (base := base) (f := f') hc'
  rw [h] at hf hindex
  exact ⟨hf.symm.trans hf', Channel.index_injective (hindex.symm.trans hindex')⟩

/-- Settles O39: the declared region bounds its sample words and `BUF_OK` bounds the region; an offset determines its frame
and channel. -/
theorem sampleWordsAreDistinctAndInside : Obligations.SampleWordsAreDistinctAndInside := by
  intro base nframes nchan s hbuf
  refine ⟨?_, fun f c f' c' hc hc' h => sampleAddr_inj hc hc' h⟩
  rintro a ⟨f, hf, c, hc, rfl⟩
  have hregion := sampleAddr_lt (base := base) hf hc
  exact ⟨le_sampleAddr base f c nchan, hregion, hregion.trans_le (State.bufOk_le hbuf)⟩

/-! ### The one fault -/

/-- `BUF_OK` written out (R47): inside the 2^32 words and inside one lent region. -/
theorem State.bufOk_iff (s : State) (base n : Nat) : s.bufOk base n = true ↔
    base + n ≤ 2 ^ 32 ∧ ∃ r ∈ s.lent, r.base ≤ base ∧ base + n ≤ r.base + r.size := by
  rw [State.bufOk, Bool.and_eq_true, decide_eq_true_iff, List.any_eq_true]
  simp only [Region.holds, decide_eq_true_iff]

theorem State.active_iff (s : State) : s.active = true ↔ s.en = true ∧ s.initd = true := by
  rw [State.active, Bool.and_eq_true, and_comm]

/-- `PROCESS` faults only on the middle outcome of `execProcess_cases` (R145). -/
theorem execProcess_fault_iff (base nframes nchan : Word) (s : State) (f : Fault) :
    execProcess base nframes nchan s = .fault f ↔
      f = .bufferRange base nframes nchan ∧ s.active = true ∧ 0 < nframes.toNat * nchan.toNat ∧
        s.bufOk base.toNat (nframes.toNat * nchan.toNat) = false := by
  obtain ⟨hoff, hexec⟩ | ⟨hon, hpos, hbad, hexec⟩ | ⟨-, hbuf, hexec⟩ := execProcess_cases base nframes nchan s
  · rw [hexec]
    exact ⟨nofun, fun ⟨_, hon, _⟩ => absurd (hon.symm.trans hoff) (by decide)⟩
  · rw [hexec]
    exact ⟨fun h => ⟨(Host.Outcome.fault.inj h).symm, hon, hpos, hbad⟩, fun ⟨hf, _⟩ => congrArg _ hf.symm⟩
  · rw [hexec]
    exact ⟨nofun, fun ⟨_, _, hpos, hbad⟩ => absurd ((hbuf hpos).symm.trans hbad) (by decide)⟩

/-- No command but `PROCESS` faults (R143). -/
theorem exec_fault_process {i : Instr} {s : State} {f : Fault} (h : exec i s = .fault f) :
    ∃ base nframes nchan, i = .process base nframes nchan := by
  cases i with
  | process base nframes nchan => exact ⟨base, nframes, nchan, rfl⟩
  | setgain b g =>
    simp only [exec, execSetgain] at h
    split at h <;> cases h
  | getgain b =>
    simp only [exec, execGetgain] at h
    split at h <;> cases h
  | init | seten | geten | reset => cases h

/-- Settles O34: only `PROCESS` can fault, and `execProcess_fault_iff` says when it does. -/
theorem onlyABadBufferFaults : Obligations.OnlyABadBufferFaults := by
  intro i s f
  simp only [← State.bufOk_iff, Bool.not_eq_true]
  constructor
  · intro h
    obtain ⟨base, nframes, nchan, rfl⟩ := exec_fault_process h
    obtain ⟨hf, hactive, hpos, hbad⟩ := (execProcess_fault_iff base nframes nchan s f).1 h
    obtain ⟨hen, hinitd⟩ := s.active_iff.1 hactive
    exact ⟨base, nframes, nchan, rfl, hf, hen, hinitd, hpos, hbad⟩
  · rintro ⟨base, nframes, nchan, rfl, hf, hen, hinitd, hpos, hbad⟩
    exact (execProcess_fault_iff base nframes nchan s f).2 ⟨hf, s.active_iff.2 ⟨hen, hinitd⟩, hpos, hbad⟩

/-! ### The agents' moves -/

/-- What replacing port `p` in a step leaves alone: the other port, the registers and the memory. -/
theorem State.tick_setPort_frame (s : State) (p : PortId) (q : Port) :
    (∀ p', p' ≠ p → (s.tick.setPort p q).port p' = s.port p') ∧ s.RegsSame (s.tick.setPort p q) ∧
      (s.tick.setPort p q).mem = s.mem :=
  ⟨fun p' hp => (s.tick.port_setPort_other hp q).trans (s.tick_port p'), s.tick_setPort_regsSame p q,
    s.tick.setPort_mem p q⟩

/-- A send step takes the first message left, to a free port (R57, R148). -/
theorem step_of_send {s t : State} {p : PortId} (h : step s = .next t) (hmove : s.chooseMove = some (.send p)) :
    ∃ m rest, (s.port p).free = true ∧ (s.port p).toSend = m :: rest ∧
      t = s.tick.setPort p { s.port p with pending := some m, toSend := rest } := by
  obtain ⟨hc, -⟩ | ⟨p', m, rest, hc, hfree, hsend, ht⟩ | ⟨_, _, hc, -⟩ | ⟨_, _, hc, -⟩ := step_cases h <;>
    cases hmove.symm.trans hc
  exact ⟨m, rest, hfree, hsend, ht⟩

/-- A take step moves the undelivered response to the end of those received (R148). -/
theorem step_of_take {s t : State} {p : PortId} (h : step s = .next t) (hmove : s.chooseMove = some (.take p)) :
    ∃ r, (s.port p).undelivered = some r ∧
      t = s.tick.setPort p { s.port p with undelivered := none, received := (s.port p).received ++ [r] } := by
  obtain ⟨hc, -⟩ | ⟨_, _, _, hc, -⟩ | ⟨p', r, hc, hundelivered, ht⟩ | ⟨_, _, hc, -⟩ := step_cases h <;>
    cases hmove.symm.trans hc
  exact ⟨r, hundelivered, ht⟩

/-- Settles O44: either move replaces port `p` and nothing else. -/
theorem agentMovesFollowThePortProtocol : Obligations.AgentMovesFollowThePortProtocol := by
  intro s t p h
  constructor
  · intro hmove
    obtain ⟨m, rest, hfree, hsend, rfl⟩ := step_of_send h hmove
    obtain ⟨hidle, hpending, hundelivered⟩ := (Port.free_iff _).1 hfree
    exact ⟨m, rest, hsend, hidle, hpending, hundelivered, s.tick.port_setPort_same p _, s.tick_setPort_frame p _⟩
  · intro hmove
    obtain ⟨r, hundelivered, rfl⟩ := step_of_take h hmove
    exact ⟨r, hundelivered, s.tick.port_setPort_same p _, s.tick_setPort_frame p _⟩

/-! ### The choice among the moves -/

/-- The move at the head of the schedule is made if it can happen: alone, or as the scheduled one of several. -/
theorem State.chooseMove_of_scheduled {s : State} {mv : Move} {rest : List Move} (hschedule : s.schedule = mv :: rest)
    (henabled : s.enabled mv = true) : s.chooseMove = some mv := by
  have hmem := (s.mem_enabledMoves mv).2 henabled
  unfold State.chooseMove
  rw [hschedule]
  match hmoves : s.enabledMoves with
  | [] => rw [hmoves] at hmem; cases hmem
  | [m] => rw [hmoves] at hmem; rw [List.mem_singleton.1 hmem]
  | m :: m' :: ms => rw [hmoves] at hmem; exact if_pos hmem

theorem State.enabled_congr {s t : State} (hport : ∀ p, t.port p = s.port p) (mv : Move) :
    t.enabled mv = s.enabled mv := by
  cases mv <;> simp only [State.enabled, hport]

/-- Settles O45: the schedule has no part in which moves can happen, and its head is the one made. -/
theorem everyPossibleMoveCanComeNext : Obligations.EveryPossibleMoveCanComeNext := by
  intro s mv henabled
  refine State.chooseMove_of_scheduled rfl ((State.enabled_congr (s := s) (fun p => ?_) mv).trans henabled)
  cases p <;> rfl

end Sys2Proof.Machine
end

section
/-! SUPPORT. The field layout of a command word (30_encoding.md R61) under the decoder and the encoder: a word is its four
fields, a row of the opcode table fixes the opcode and the reserved ones among them, and the decoder's checks are the layout's
(`decode_cases`). The round trips, the checks and the cutting of a word stream follow. -/

namespace Sys2Proof

/-! ### Words as their fields -/

/-- The `RSV` field, bits 23:1 (R61). -/
def rsvOf (w : Word) : BitVec 23 := w.extractLsb' 1 23

theorem opOf_and (v w : Word) : opOf (v &&& w) = opOf v &&& opOf w := BitVec.extractLsb'_and
theorem bandOf_and (v w : Word) : bandOf (v &&& w) = bandOf v &&& bandOf w := BitVec.extractLsb'_and
theorem rsvOf_and (v w : Word) : rsvOf (v &&& w) = rsvOf v &&& rsvOf w := BitVec.extractLsb'_and
theorem enableOf_and (v w : Word) : enableOf (v &&& w) = (enableOf v && enableOf w) := BitVec.getLsbD_and

theorem toNat_opOf (m : Message) : (opOf m.word).toNat = m.opField := by
  have := m.word.isLt
  simp only [opOf, Message.opField, BitVec.extractLsb'_toNat, Nat.shiftRight_eq_div_pow]
  omega

theorem toNat_bandOf (m : Message) : (bandOf m.word).toNat = m.bandField := by
  simp only [bandOf, Message.bandField, BitVec.extractLsb'_toNat, Nat.shiftRight_eq_div_pow]

theorem toNat_rsvOf (m : Message) : (rsvOf m.word).toNat = m.rsvField := by
  simp only [rsvOf, Message.rsvField, BitVec.extractLsb'_toNat, Nat.shiftRight_eq_div_pow]

theorem toNat_enableOf (m : Message) : (enableOf m.word).toNat = m.eField :=
  (Nat.toNat_testBit _ 0).trans (by rw [pow_zero, Nat.div_one, Message.eField])

/-- The four fields cover the word (R61). -/
theorem word_eq_iff (v w : Word) :
    v = w ↔ opOf v = opOf w ∧ rsvOf v = rsvOf w ∧ bandOf v = bandOf w ∧ enableOf v = enableOf w := by
  refine ⟨fun h => by simp [h], fun ⟨hop, hrsv, hband, henable⟩ => BitVec.eq_of_toNat_eq ?_⟩
  have fields (x : Word) : x.toNat =
      (opOf x).toNat * 2 ^ 28 + (bandOf x).toNat * 2 ^ 24 + (rsvOf x).toNat * 2 + (enableOf x).toNat := by
    have hop := toNat_opOf ⟨x, []⟩
    have hband := toNat_bandOf ⟨x, []⟩
    have hrsv := toNat_rsvOf ⟨x, []⟩
    have henable := toNat_enableOf ⟨x, []⟩
    simp only [Message.opField, Message.bandField, Message.rsvField, Message.eField] at hop hband hrsv henable
    omega
  rw [fields v, fields w, hop, hrsv, hband, henable]

/-- Which fields R66 reserves, by the opcode. -/
theorem reservedClear_iff (m : Message) :
    m.reservedClear = true ↔ rsvOf m.word = 0#23 ∧ (bandOf m.word = 0#4 ∨ opOf m.word = 2#4 ∨ opOf m.word = 3#4) ∧
      (enableOf m.word = false ∨ opOf m.word = 4#4) := by
  simp [Message.reservedClear, ← toNat_opOf, ← toNat_bandOf, ← toNat_rsvOf, ← toNat_enableOf, BitVec.toNat_eq,
    or_assoc, and_assoc]

/-! ### Rows of the opcode table -/

/-- A row fixes the opcode, `RSV` at 0, and `BAND` and `E` at 0 for all but the opcodes that use them (R62, R66). -/
theorem row_fields : ∀ r ∈ opcodeTable,
    (opOf r.mask = BitVec.allOnes 4 ∧ opOf r.pattern = r.code) ∧
    (rsvOf r.mask = BitVec.allOnes 23 ∧ rsvOf r.pattern = 0#23) ∧
    (bandOf r.mask = (if r.code = 2#4 ∨ r.code = 3#4 then 0#4 else BitVec.allOnes 4) ∧ bandOf r.pattern = 0#4) ∧
    (enableOf r.mask = decide (r.code ≠ 4#4) ∧ enableOf r.pattern = false) := by
  decide

/-- A word matches a row exactly when the opcode is the row's and no reserved bit is set. -/
theorem and_mask_eq_pattern_iff {r : OpRow} (hr : r ∈ opcodeTable) (m : Message) :
    m.word &&& r.mask = r.pattern ↔ opOf m.word = r.code ∧ m.reservedClear = true := by
  obtain ⟨⟨hopMask, hop⟩, ⟨hrsvMask, hrsv⟩, ⟨hbandMask, hband⟩, ⟨henableMask, henable⟩⟩ := row_fields r hr
  rw [word_eq_iff, reservedClear_iff, opOf_and, rsvOf_and, bandOf_and, enableOf_and, hopMask, hrsvMask, hbandMask,
    henableMask, hop, hrsv, hband, henable, BitVec.and_allOnes, BitVec.and_allOnes]
  refine and_congr_right fun hcode => and_congr_right fun _ => and_congr ?_ ?_
  · rw [hcode]
    by_cases htakesBand : r.code = 2#4 ∨ r.code = 3#4
    · simp [htakesBand]
    · rw [if_neg htakesBand, BitVec.and_allOnes, or_iff_left htakesBand]
  · rw [hcode]
    by_cases htakesEnable : r.code = 4#4 <;> simp [htakesEnable]

theorem row_eq_of_code_eq : ∀ r ∈ opcodeTable, ∀ r' ∈ opcodeTable, r.code = r'.code → r = r' := by decide

/-- Settles O4: the word's opcode is the code of every row it matches. -/
theorem opcodeRowsNeverOverlap : Obligations.OpcodeRowsNeverOverlap := by
  intro w r r' hr hr' hmatch hmatch'
  have hcode := ((and_mask_eq_pattern_iff hr ⟨w, []⟩).1 hmatch).1
  have hcode' := ((and_mask_eq_pattern_iff hr' ⟨w, []⟩).1 hmatch').1
  exact row_eq_of_code_eq r hr r' hr' (hcode.symm.trans hcode')

/-! ### The encoder's fields -/

/-- The opcode number of a command (R62). -/
def Instr.code : Instr → BitVec 4
  | .init _ => 1#4
  | .setgain _ _ => 2#4
  | .getgain _ => 3#4
  | .seten _ => 4#4
  | .geten => 5#4
  | .reset => 6#4
  | .process _ _ _ => 7#4

/-- The `BAND` field of a command, 0 where R66 reserves it. -/
@[simp] def Instr.band : Instr → BitVec 4
  | .setgain b _ | .getgain b => b
  | _ => 0#4

/-- The `E` field of a command, 0 where R66 reserves it. -/
@[simp] def Instr.enable : Instr → Bool
  | .seten e => e
  | _ => false

/-- What the encoder writes in each field (R61 to R63). -/
theorem encode_fields (i : Instr) : opOf (encode i).word = i.code ∧ rsvOf (encode i).word = 0#23 ∧
    bandOf (encode i).word = i.band ∧ enableOf (encode i).word = i.enable := by
  cases i with
  | setgain b | getgain b => dsimp only [encode, Instr.code, Instr.band, Instr.enable]; revert b; decide
  | seten e => revert e; decide
  | init | geten | reset | process => dsimp only [encode, Instr.code, Instr.band, Instr.enable]; decide

/-- A message with a command's fields and operand words is the command's encoding. -/
theorem encode_eq_of_fields {i : Instr} {m : Message} (hop : opOf m.word = i.code) (hrsv : rsvOf m.word = 0#23)
    (hband : bandOf m.word = i.band) (henable : enableOf m.word = i.enable) (hops : m.ops = (encode i).ops) :
    encode i = m := by
  obtain ⟨hop', hrsv', hband', henable'⟩ := encode_fields i
  have hword : (encode i).word = m.word := (word_eq_iff _ _).2
    ⟨hop'.trans hop.symm, hrsv'.trans hrsv.symm, hband'.trans hband.symm, henable'.trans henable.symm⟩
  cases m
  exact congr (congrArg Message.mk hword) hops.symm

/-! ### The decoder's checks -/

/-- What reading the operand words of `m` against the count `n` gives: the operand-count error when the count differs, and
otherwise a command whose encoding is `m` (R63, R67). -/
def ReadsOperands (m : Message) (n : Nat) (result : Except DecodeError Instr) : Prop :=
  (m.ops.length ≠ n ∧ result = .error .operandCount) ∨ (m.ops.length = n ∧ ∃ i, result = .ok i ∧ encode i = m)

theorem takeNone_reads {m : Message} {i : Instr} (h : m.ops = [] → encode i = m) :
    ReadsOperands m 0 (takeNone i m.ops) := by
  match hops : m.ops with
  | [] => exact .inr ⟨congrArg _ hops, i, rfl, h hops⟩
  | _ :: _ => exact .inl ⟨by simp [hops], rfl⟩

theorem takeOne_reads {m : Message} {f : Word → Instr} (h : ∀ a, m.ops = [a] → encode (f a) = m) :
    ReadsOperands m 1 (takeOne f m.ops) := by
  match hops : m.ops with
  | [a] => exact .inr ⟨congrArg _ hops, f a, rfl, h a hops⟩
  | [] | _ :: _ :: _ => exact .inl ⟨by simp [hops], rfl⟩

theorem takeThree_reads {m : Message} {f : Word → Word → Word → Instr}
    (h : ∀ a b c, m.ops = [a, b, c] → encode (f a b c) = m) : ReadsOperands m 3 (takeThree f m.ops) := by
  match hops : m.ops with
  | [a, b, c] => exact .inr ⟨congrArg _ hops, f a b c, rfl, h a b c hops⟩
  | [] | [_] | [_, _] | _ :: _ :: _ :: _ :: _ => exact .inl ⟨by simp [hops], rfl⟩

/-- Once opcode and reserved bits are checked, a row's command is read from its operand words alone (R70). -/
theorem commandOf_reads {r : OpRow} (hr : r ∈ opcodeTable) {m : Message} (hop : opOf m.word = r.code)
    (hclear : m.reservedClear = true) : ReadsOperands m r.nops (commandOf r.opcode m.word m.ops) := by
  rw [reservedClear_iff, hop] at hclear
  obtain ⟨hrsv, hband, henable⟩ := hclear
  simp only [opcodeTable, List.mem_cons, List.not_mem_nil, or_false] at hr
  rcases hr with rfl | rfl | rfl | rfl | rfl | rfl | rfl
  · exact takeOne_reads fun _ hops => encode_eq_of_fields hop hrsv (by simpa using hband) (by simpa using henable) hops
  · exact takeOne_reads fun _ hops => encode_eq_of_fields hop hrsv rfl (by simpa using henable) hops
  · exact takeNone_reads fun hops => encode_eq_of_fields hop hrsv rfl (by simpa using henable) hops
  · exact takeNone_reads fun hops => encode_eq_of_fields hop hrsv (by simpa using hband) rfl hops
  · exact takeNone_reads fun hops => encode_eq_of_fields hop hrsv (by simpa using hband) (by simpa using henable) hops
  · exact takeNone_reads fun hops => encode_eq_of_fields hop hrsv (by simpa using hband) (by simpa using henable) hops
  · exact takeThree_reads fun _ _ _ hops => encode_eq_of_fields hop hrsv (by simpa using hband) (by simpa using henable) hops

theorem mem_of_rowOf {op : BitVec 4} {r : OpRow} (h : rowOf op = some r) : r ∈ opcodeTable ∧ op = r.code :=
  ⟨List.mem_of_find?_eq_some h, (eq_of_beq (List.find?_some h :)).symm⟩

theorem nopsOfOp_opField (m : Message) : nopsOfOp m.opField = nopsOf m.word := by
  rw [← toNat_opOf, nopsOf]
  exact (by decide : ∀ op : BitVec 4, nopsOfOp op.toNat = (rowOf op).map OpRow.nops) (opOf m.word)

/-- The four answers of the decoder, in the order of its checks, by the field layout (R66, R67, R70). -/
theorem decode_cases (m : Message) :
    (m.opcodeAssigned = false ∧ decode m = .error .reservedOpcode) ∨
    (m.opcodeAssigned = true ∧ m.reservedClear = false ∧ decode m = .error .reservedBit) ∨
    (m.opcodeAssigned = true ∧ m.reservedClear = true ∧ m.countFits = false ∧ decode m = .error .operandCount) ∨
    (m.opcodeAssigned = true ∧ m.reservedClear = true ∧ m.countFits = true ∧ ∃ i, decode m = .ok i ∧ encode i = m) := by
  rw [Message.opcodeAssigned, Message.countFits, nopsOfOp_opField, nopsOf, decode]
  cases hrow : rowOf (opOf m.word) with
  | none => exact .inl ⟨rfl, rfl⟩
  | some r =>
    obtain ⟨hr, hop⟩ := mem_of_rowOf hrow
    simp only [and_mask_eq_pattern_iff hr, hop, true_and]
    right
    cases hclear : m.reservedClear with
    | false => exact .inl ⟨rfl, rfl, rfl⟩
    | true =>
      right
      obtain ⟨hcount, hresult⟩ | ⟨hcount, hresult⟩ := commandOf_reads hr hop hclear
      · exact .inl ⟨rfl, rfl, by simpa using hcount.symm, hresult⟩
      · exact .inr ⟨rfl, rfl, by simpa using hcount.symm, hresult⟩

/-! ### The round trips and the word stream -/

theorem decode_of_row {m : Message} {r : OpRow} (hrow : rowOf (opOf m.word) = some r) (hclear : m.reservedClear = true) :
    decode m = commandOf r.opcode m.word m.ops := by
  obtain ⟨hr, hop⟩ := mem_of_rowOf hrow
  rw [decode, hrow]
  exact if_pos ((and_mask_eq_pattern_iff hr m).2 ⟨hop, hclear⟩)

theorem reservedClear_encode (i : Instr) : (encode i).reservedClear = true := by
  obtain ⟨hop, hrsv, hband, henable⟩ := encode_fields i
  rw [reservedClear_iff, hop, hrsv, hband, henable]
  cases i <;> simp [Instr.code]

/-- Settles O1: the encoding has the command's row, and the fields the row leaves free hold the command's values. -/
theorem decodeOfEncodeGivesTheCommand : Obligations.DecodeOfEncodeGivesTheCommand := by
  intro i
  obtain ⟨hop, -, hband, henable⟩ := encode_fields i
  have hdecode {r : OpRow} (hrow : rowOf i.code = some r) :
      decode (encode i) = commandOf r.opcode (encode i).word (encode i).ops :=
    decode_of_row (hop ▸ hrow) (reservedClear_encode i)
  cases i with
  | setgain b g => exact (hdecode rfl).trans (congrArg (fun k => Except.ok (Instr.setgain k g)) hband)
  | getgain b => exact (hdecode rfl).trans (congrArg (fun k => Except.ok (Instr.getgain k)) hband)
  | seten e => exact (hdecode rfl).trans (congrArg (fun k => Except.ok (Instr.seten k)) henable)
  | init | geten | reset | process => exact hdecode rfl

/-- Settles O2: the decoder answers a command only in the last case of `decode_cases`, where its encoding is the message. -/
theorem encodeOfDecodeGivesTheMessage : Obligations.EncodeOfDecodeGivesTheMessage := by
  intro m i h
  obtain ⟨-, herror⟩ | ⟨-, -, herror⟩ | ⟨-, -, -, herror⟩ | ⟨-, -, -, j, hj, hencode⟩ := decode_cases m
  · cases h.symm.trans herror
  · cases h.symm.trans herror
  · cases h.symm.trans herror
  · cases h.symm.trans hj
    exact hencode

/-- Settles O3: the cases of `decode_cases` exclude each other. -/
theorem decoderChecksInOrder : Obligations.DecoderChecksInOrder := by
  intro m
  rw [Message.wellFormed]
  obtain ⟨hassigned, h⟩ | ⟨hassigned, hclear, h⟩ | ⟨hassigned, hclear, hcount, h⟩ | ⟨hassigned, hclear, hcount, i, h, -⟩ :=
    decode_cases m <;> simp [*]

theorem nopsOf_of_decode {m : Message} {i : Instr} (h : decode m = .ok i) : nopsOf m.word = some m.ops.length := by
  obtain ⟨-, -, -, hwellFormed⟩ := decoderChecksInOrder m
  have hwf : m.wellFormed = true := hwellFormed.1 ⟨i, h⟩
  rw [← nopsOfOp_opField]
  exact eq_of_beq (Bool.and_eq_true_iff.1 hwf).2

/-- Settles O6: a decoded message has the operand count of its command word. -/
theorem streamCutsAtTheMessageLength : Obligations.StreamCutsAtTheMessageLength := by
  intro m i rest h
  rw [takeMessage, nopsOf_of_decode h]
  simp

/-- Settles O5, by running the decoder on each message. -/
theorem specWordsDecodeAsListed : Obligations.SpecWordsDecodeAsListed := by
  unfold Obligations.SpecWordsDecodeAsListed
  decide

end Sys2Proof
end

section
/-! SUPPORT. Messages and their responses (30_encoding.md R60, R64, R68, R69, R74, R75): what a host's band index names, the
commands of `LOADCFG` run one after the other, the `ILLEGAL` response, and the count of messages and responses on a port. -/

namespace Sys2Proof.Machine

/-! ### Bands -/

theorem bandIndex_of_le {b : BitVec 4} (hb : b.toNat ≤ 8) : bandIndex b = some ⟨b.toNat, by omega⟩ :=
  dif_pos (by omega)

theorem bandIndex_eq_none {b : BitVec 4} (hb : 8 < b.toNat) : bandIndex b = none := dif_neg (by omega)

theorem bandIndex_bandField (b : Band) : bandIndex (bandField b) = some b := by revert b; decide

/-- Settles O7: the driver's index is kept in range, and 0xF names no band. -/
theorem hostBandIndexNamesItsBand : Obligations.HostBandIndexNamesItsBand := by
  intro i
  refine ⟨fun hi => ?_, fun hi => ?_⟩
  · obtain ⟨b, rfl⟩ : ∃ b : Band, (b.val : Int) = i := ⟨⟨i.toNat, by omega⟩, by simp; omega⟩
    have hfield : hostBand b.val = bandField b := by
      rw [hostBand, if_pos hi, BitVec.ofInt_natCast, bandField]
    exact ⟨b, by rw [hfield, bandIndex_bandField], rfl⟩
  · have hfield : hostBand i = 0xF#4 := if_neg hi
    exact ⟨hfield, by rw [hfield]; rfl⟩

/-- Recording a response changes nothing else (R13). -/
theorem State.respond_onlyAnswered (s : State) (r : Response) : s.OnlyAnswered (s.respond r) r :=
  ⟨s.respond_answered r, s.respond_regsSame r,
    ⟨s.respond_lent r, s.respond_serving r, s.respond_schedule r, s.respond_picks r⟩, s.respond_mem r, s.respond_draws r⟩

/-- Settles O24: a field above 8 names no band, and then either command only answers. -/
theorem bandsNineToFifteenAreInert : Obligations.BandsNineToFifteenAreInert := by
  refine ⟨fun b hb => ⟨_, bandIndex_of_le hb, rfl⟩, fun b g s hb => ?_⟩
  have hnone := bandIndex_eq_none hb
  refine ⟨decodeOfEncodeGivesTheCommand _, decodeOfEncodeGivesTheCommand _,
    ⟨s.respond (Response.done 0#32), ?_, s.respond_onlyAnswered _⟩,
    ⟨s.respond (Response.done 0#32), ?_, s.respond_onlyAnswered _⟩⟩
  · rw [exec, execSetgain, hnone]
  · rw [exec, execGetgain, hnone]

/-! ### LOADCFG -/

/-- From `s` to `t` the bands of `l` were given their gains, and tuned to them if the block is initialized (R74, R102). -/
structure State.GainsLoaded (gains : Vector F32 9) (l : List Band) (s t : State) : Prop where
  loaded : ∀ b ∈ l, inRange fNeg30 f30 (t.gainAt b) = true ∧
    (isNaN gains[b.val] = false → t.gainAt b = clampNumber gains[b.val])
  others : ∀ b, b ∉ l → t.gainAt b = s.gainAt b
  coefs  : ∀ b c, t.coefAt b c = if b ∈ l ∧ s.initd = true then bandCoef b s.rate (t.gainAt b) else s.coefAt b c
  en     : t.en = s.en
  initd  : t.initd = s.initd
  fs     : t.fs = s.fs
  hist   : t.hist = s.hist
  mem    : t.mem = s.mem

theorem State.GainsLoaded.nil (gains : Vector F32 9) (s : State) : State.GainsLoaded gains [] s s where
  loaded := nofun
  others _ _ := rfl
  coefs _ _ := (if_neg fun h => nomatch h.1).symm
  en := rfl
  initd := rfl
  fs := rfl
  hist := rfl
  mem := rfl

/-- One band and then the bands of `l`; a band in both has its later gain. -/
theorem State.GainsLoaded.cons {gains : Vector F32 9} {b : Band} {l : List Band} {s t u : State}
    (h : State.GainsLoaded gains [b] s t) (h' : State.GainsLoaded gains l t u) :
    State.GainsLoaded gains (b :: l) s u where
  loaded k hk := by
    by_cases hl : k ∈ l
    · exact h'.loaded k hl
    · rw [h'.others k hl]
      exact h.loaded k (List.mem_singleton.2 ((List.mem_cons.1 hk).resolve_right hl))
  others k hk := by
    rw [List.mem_cons, not_or] at hk
    exact (h'.others k hk.2).trans (h.others k (mt List.mem_singleton.1 hk.1))
  coefs k c := by
    rw [h'.coefs, h.initd, State.rate_congr h.fs]
    by_cases hl : k ∈ l
    · by_cases hinitd : s.initd = true
      · rw [if_pos ⟨hl, hinitd⟩, if_pos ⟨List.mem_cons_of_mem b hl, hinitd⟩]
      · simp [h.coefs, hinitd]
    · rw [if_neg (fun h => hl h.1), h.coefs, h'.others k hl]
      simp [hl]
  en := h'.en.trans h.en
  initd := h'.initd.trans h.initd
  fs := h'.fs.trans h.fs
  hist := h'.hist.trans h.hist
  mem := h'.mem.trans h.mem

theorem State.clamp_of_not_isNaN (s : State) {g : F32} (hg : isNaN g = false) : (s.clamp g).1 = clampNumber g := by
  rw [State.clamp, hg]; rfl

theorem State.GainsLoaded.respond {gains : Vector F32 9} {l : List Band} {s t : State}
    (h : State.GainsLoaded gains l s t) (r : Response) : State.GainsLoaded gains l s (t.respond r) where
  loaded := by simpa using h.loaded
  others := by simpa using h.others
  coefs := by simpa using h.coefs
  en := by simpa using h.en
  initd := by simpa using h.initd
  fs := by simpa using h.fs
  hist := by simpa using h.hist
  mem := by simpa using h.mem

/-- The gain and the coefficients after a `SETGAIN` of a band (R102). -/
theorem Effect.setgain_regs {w : BitVec 4} {b : Band} {g : F32} {s u : State} (h : Effect s (.setgain w g) u)
    (hb : bandIndex w = some b) :
    u.gainAt b = (s.clamp g).1 ∧ (∀ b', b' ≠ b → u.gainAt b' = s.gainAt b') ∧
      (∀ b' c, u.coefAt b' c = if b' = b ∧ s.initd = true then bandCoef b s.rate (s.clamp g).1 else s.coefAt b' c) ∧
      u.en = s.en ∧ u.initd = s.initd ∧ u.fs = s.fs ∧ u.hist = s.hist ∧ u.mem = s.mem := by
  cases h with
  | setgainInert _ _ hnone => cases hb.symm.trans hnone
  | setgain _ _ b' hb' k hk =>
    obtain rfl : b = b' := Option.some.inj (hb.symm.trans hb')
    exact ⟨s.gainAt_setGain_same b _, fun b' hother => s.gainAt_setGain_other hother _, hk, rfl, rfl, rfl, rfl, rfl⟩

theorem Effect.gainsLoaded {gains : Vector F32 9} {b : Band} {s u : State}
    (h : Effect s (.setgain (bandField b) gains[b.val]) u) : State.GainsLoaded gains [b] s u := by
  obtain ⟨hgain, hothers, hcoefs, hen, hinitd, hfs, hhist, hmem⟩ := h.setgain_regs (bandIndex_bandField b)
  refine ⟨fun b' hb' => ?_, fun b' hb' => hothers b' (mt List.mem_singleton.2 hb'), fun b' c => ?_, hen, hinitd, hfs,
    hhist, hmem⟩
  · obtain rfl := List.mem_singleton.1 hb'
    rw [hgain]
    exact ⟨s.clamp_inRange _, s.clamp_of_not_isNaN⟩
  · simp only [hcoefs, List.mem_singleton]
    by_cases hband : b' = b
    · rw [hband, hgain]
    · rw [if_neg (fun h => hband h.1), if_neg (fun h => hband h.1)]

/-- `SETGAIN` of a band completes with its effect (R102). -/
theorem exec_setgain_of_band {w : BitVec 4} {b : Band} (hb : bandIndex w = some b) (g : F32) (s : State) :
    ∃ u, exec (.setgain w g) s = .next (u.respond (Response.done 0#32)) ∧ Effect s (.setgain w g) u :=
  ⟨_, by rw [exec, execSetgain, hb], effect_setgain hb g s⟩

/-- `SETGAIN` of one band after another completes and loads their gains (R74). -/
theorem runInstrs_setgains (gains : Vector F32 9) (l : List Band) (s : State) :
    ∃ t, runInstrs (l.map fun b => .setgain (bandField b) gains[b.val]) s = .next t ∧ State.GainsLoaded gains l s t := by
  induction l generalizing s with
  | nil => exact ⟨s, rfl, .nil gains s⟩
  | cons b l ih =>
    obtain ⟨u, hexec, heffect⟩ := exec_setgain_of_band (bandIndex_bandField b) gains[b.val] s
    obtain ⟨t, hrun, hrest⟩ := ih (u.respond (Response.done 0#32))
    refine ⟨t, ?_, (heffect.gainsLoaded.respond _).cons hrest⟩
    rw [List.map_cons, runInstrs, hexec]
    exact hrun

/-- Settles O8: `SETEN` writes `EN`, and the nine `SETGAIN` load the nine gains. -/
theorem loadcfgLoadsEnableAndGains : Obligations.LoadcfgLoadsEnableAndGains := by
  intro e gains s
  obtain ⟨t, hrun, hloaded, -, hcoefs, hen, hinitd, hfs, hhist, hmem⟩ :=
    runInstrs_setgains gains (List.finRange 9) (({ s with en := e } : State).respond (Response.done 0#32))
  simp only [State.respond_en, State.respond_initd, State.respond_fs, State.respond_hist, State.respond_mem]
    at hen hinitd hfs hhist hmem
  refine ⟨t, hrun, hen, fun b => hloaded b (List.mem_finRange b), fun b c => ?_, hinitd, hfs, hhist, hmem⟩
  have hstart : (({ s with en := e } : State).respond (Response.done 0#32)).coefAt b c = s.coefAt b c :=
    State.coefAt_congr (State.respond_coef _ _) b c
  simpa [hstart, State.rate_congr (s := s)] using hcoefs b c

/-! ### Responses -/

/-- A message that completes leaves its response on its port and the other port alone (R68, R69, R148). -/
theorem performMessage_port {p : PortId} {m : Message} {s t : State} (h : performMessage p m s = .next t) :
    ∃ r, t.port p = { s.port p with state := .idle, pending := none, undelivered := some r } ∧
      ∀ p', p' ≠ p → t.port p' = s.port p' := by
  obtain ⟨u, r, rfl, hhost⟩ := performMessage_next_respond h
  obtain rfl : u.serving = p := hhost.serving
  refine ⟨r, ?_, fun p' hp => ?_⟩
  · rw [State.port_respond_serving, hhost.port, State.port_accept_same]
  · rw [State.port_respond_other _ hp, hhost.port, State.port_accept_other _ hp]

/-- Settles O43: `accept` and `respond` touch port `p` and nothing else. -/
theorem illegalMessageOnlyAnswers : Obligations.IllegalMessageOnlyAnswers := by
  intro p m e s he
  refine ⟨(s.accept p m).respond Response.illegal, by rw [performMessage, he], by simp [State.RegsSame], by simp,
    by simp, by simp, ?_, fun p' hp => ?_⟩
  · have hport := (s.accept p m).port_respond_serving Response.illegal
    rwa [State.accept_serving, State.port_accept_same] at hport
  · rw [State.port_respond_other _ hp, State.port_accept_other _ hp]

/-- The messages of a port's agent that are left, outstanding or answered (R60, R69). -/
def Port.messages (q : Port) : Nat :=
  q.toSend.length + q.pending.toList.length + q.undelivered.toList.length + q.received.length

theorem State.messages_setPort {s : State} {p : PortId} {q : Port} (h : q.messages = (s.port p).messages) (p' : PortId) :
    ((s.setPort p q).port p').messages = (s.port p').messages := by
  by_cases hp : p' = p
  · rw [hp, State.port_setPort_same, h]
  · rw [State.port_setPort_other _ hp]

/-- Settles O46: each move takes a port's message from one of the four places to the next. -/
theorem everyMessageGetsOneResponse : Obligations.EveryMessageGetsOneResponse := by
  intro s t horderly h p
  change (t.port p).messages = (s.port p).messages
  obtain ⟨-, rfl⟩ | ⟨p', m, rest, -, hfree, hsend, rfl⟩ | ⟨p', r, -, hundelivered, rfl⟩ | ⟨p', m, -, hpending, hperform⟩ :=
    step_cases h
  · rfl
  · obtain ⟨-, hpending, -⟩ := (Port.free_iff _).1 hfree
    refine (State.messages_setPort ?_ p).trans (congrArg Port.messages (s.tick_port p))
    simp [Port.messages, hsend, hpending]
  · refine (State.messages_setPort ?_ p).trans (congrArg Port.messages (s.tick_port p))
    simp only [State.tick_port, Port.messages, hundelivered, Option.toList_none, Option.toList_some,
      List.length_append, List.length_singleton, List.length_nil]
    omega
  · obtain ⟨r, hport, hothers⟩ := performMessage_port hperform
    by_cases hp : p = p'
    · subst hp
      have hundelivered : (s.port p).undelivered = none :=
        (s.portsOrderly_iff.1 horderly p).2.resolve_left (by simp [hpending])
      simp [hport, Port.messages, hpending, hundelivered]
    · rw [hothers p hp, State.tick_port]

/-! ### Assembled lines -/

/-- Settles O53, by running the assembler on each line. -/
theorem specLinesAssembleAsListed : Obligations.SpecLinesAssembleAsListed := by
  unfold Obligations.SpecLinesAssembleAsListed
  decide +kernel

end Sys2Proof.Machine
end

section
/-! SUPPORT. Exact results of the four operations (00_scope.md R8, R12): a rounded magnitude that stands for the exact value
is that magnitude, so adding a zero, multiplying or dividing by 1.0, and dividing a value by itself are exact. -/

namespace Sys2Proof.Machine

theorem isInf_or_isFinite {a : F32} (h : isNaN a = false) : isInf a = true ∨ isFinite a = true := by
  rw [isInf_iff, isFinite_iff]
  exact eq_or_lt_of_le (not_lt.1 (of_decide_eq_false h))

theorem isNaN_fadd {a b : F32} (h : isNaN a = true ∨ isNaN b = true) : isNaN (fadd a b) = true :=
  (isNaN_of_isNaN_operand h).1

theorem isNaN_fsub {a b : F32} (h : isNaN a = true ∨ isNaN b = true) : isNaN (fsub a b) = true :=
  (isNaN_of_isNaN_operand h).2.1

theorem isNaN_fmul {a b : F32} (h : isNaN a = true ∨ isNaN b = true) : isNaN (fmul a b) = true :=
  (isNaN_of_isNaN_operand h).2.2.1

theorem isNaN_fdiv {a b : F32} (h : isNaN a = true ∨ isNaN b = true) : isNaN (fdiv a b) = true :=
  (isNaN_of_isNaN_operand h).2.2.2

theorem isFinite_f1 : isFinite f1 = true := by decide
theorem isFinite_f2 : isFinite f2 = true := by decide
theorem isFinite_f0 : isFinite f0 = true := by decide

/-! ### Rounding what needs no rounding -/

theorem roundMag_unitsOf_mul {m den : Nat} (hm : m < infMag) (hden : 0 < den) : roundMag (unitsOf m * den) den = m := by
  have hunits : unitsOf m ≤ 2 ^ 277 - 2 ^ 253 :=
    unitsOf_infMag_sub_one ▸ unitsOf_strictMono.monotone (Nat.le_sub_one_of_lt hm)
  have hfin : roundMag (unitsOf m * den) den < infMag :=
    (roundMag_lt_infMag_iff hden).2 (Nat.mul_lt_mul_of_pos_right (by omega) hden)
  obtain ⟨hdist, -⟩ := (roundMag_nearest hden hfin).abs_sub_le hden m
  rw [Nat.cast_mul, sub_self, abs_zero, abs_nonpos_iff, sub_eq_zero] at hdist
  exact unitsOf_strictMono.injective (by exact_mod_cast mul_right_cancel₀ (by exact_mod_cast hden.ne') hdist)

/-- Only a value of at most half a unit is rounded to zero. -/
theorem two_mul_le_of_roundMag_eq_zero {num den : Nat} (hden : 0 < den) (h : roundMag num den = 0) : 2 * num ≤ den := by
  have hnear := (roundMag_nearest (num := num) hden (by rw [h]; decide)).above 1 (by rw [h]; exact one_pos)
  rwa [h, show unitsOf 1 + unitsOf 0 = 1 from rfl, Nat.one_mul] at hnear

@[simp] theorem magOf_packF_roundMag (s : Bool) (num den : Nat) :
    magOf (packF s (roundMag num den)) = roundMag num den :=
  magOf_packF (lt_of_le_of_lt (roundMag_le_infMag num den) infMag_lt)

theorem isNaN_packF_roundMag (s : Bool) (num den : Nat) : isNaN (packF s (roundMag num den)) = false :=
  decide_eq_false (by rw [magOf_packF_roundMag]; exact (roundMag_le_infMag num den).not_gt)

/-! ### Sums and differences -/

theorem fsub_eq_fadd_fneg {a b : F32} (ha : isFinite a = true) (hb : isNaN b = false) : fsub a b = fadd a (fneg b) := by
  rw [fsub_of_not_isNaN (isNaN_of_isFinite ha) hb, fadd_of_not_isNaN (isNaN_of_isFinite ha) (by rwa [isNaN_fneg])]
  simp [addCore, isInf_of_isFinite ha]

theorem isNaN_fsub_of_isFinite {a b : F32} (ha : isFinite a = true) (hb : isFinite b = true) :
    isNaN (fsub a b) = false := by
  rw [fsub_of_not_isNaN (isNaN_of_isFinite ha) (isNaN_of_isFinite hb)]
  obtain ⟨s, hsub, -⟩ := addCore_of_isFinite (op := .sub) (x := a) (y := b) ha (by rwa [isFinite_fneg])
  rw [hsub]
  exact isNaN_packF_roundMag ..

theorem isFinite_of_isFinite_fadd {a b : F32} (ha : isFinite a = true) (h : isFinite (fadd a b) = true) :
    isFinite b = true := by
  cases hnan : isNaN b with
  | true =>
    have hsum := isNaN_fadd (a := a) (Or.inr hnan)
    rw [isNaN_of_isFinite h] at hsum; cases hsum
  | false =>
    rcases isInf_or_isFinite hnan with hinf | hfin
    · rwa [(fadd_of_isInf hinf (Or.inl ha)).2] at h
    · exact hfin

theorem natAbs_valOf (a : F32) : (valOf a).natAbs = unitsOf (magOf a) := by unfold valOf; split <;> simp

theorem valOf_of_isZero {a : F32} (h : isZero a = true) : valOf a = 0 := by simp [valOf, isZero_iff.1 h]

/-- A sum whose exact value is a binary32 value other than -0.0 is that value. -/
theorem fadd_eq_of_valOf {a b r : F32} (ha : isFinite a = true) (hb : isFinite b = true) (hr : isFinite r = true)
    (ha0 : a ≠ 0x80000000#32) (hr0 : r ≠ 0x80000000#32) (hsum : valOf a + valOf b = valOf r) : fadd a b = r := by
  cases hzero : isZero r with
  | true =>
    rw [fadd_of_sum_eq_zero ha hb (hsum.trans (valOf_of_isZero hzero)), if_neg fun h => ha0 h.1]
    have hsign : signOf r = false := by simpa [eq_negZero_iff, hzero] using hr0
    exact eq_of_signOf_of_magOf hsign.symm (isZero_iff.1 hzero).symm
  | false =>
    have hpos := unitsOf_magOf_pos hzero
    obtain ⟨s, hadd, hval⟩ := addCore_of_isFinite (op := .add) (x := a) (y := b) ha hb
    have habs : (valOf a + valOf b).natAbs = unitsOf (magOf r) := hsum ▸ natAbs_valOf r
    rw [habs, ← Nat.mul_one (unitsOf (magOf r)), roundMag_unitsOf_mul (isFinite_iff.1 hr) one_pos] at hadd
    rw [fadd_of_not_isNaN (isNaN_of_isFinite ha) (isNaN_of_isFinite hb), hadd]
    rw [habs, hsum, valOf_eq_signedVal] at hval
    have hs : s = signOf r := by
      rw [Bool.eq_iff_iff, ← signedVal_neg_iff hpos, ← signedVal_neg_iff hpos, hval]
    rw [hs, packF_signOf_magOf]

theorem ne_negZero_of_isZero {a : F32} (h : isZero a = false) : a ≠ 0x80000000#32 := by
  rintro rfl; cases h

theorem fadd_zero_right {a z : F32} (ha : isFinite a = true) (ha0 : a ≠ 0x80000000#32) (hz : isZero z = true) :
    fadd a z = a :=
  fadd_eq_of_valOf ha (isFinite_of_isZero hz) ha ha0 ha0 (by rw [valOf_of_isZero hz, add_zero])

theorem fsub_zero_right {a z : F32} (ha : isFinite a = true) (ha0 : a ≠ 0x80000000#32) (hz : isZero z = true) :
    fsub a z = a := by
  rw [fsub_eq_fadd_fneg ha (isNaN_of_isZero hz)]
  exact fadd_zero_right ha ha0 (by rwa [isZero_fneg])

theorem fadd_zero_left {b : F32} (hb : isNaN b = false) (hb0 : isZero b = false) : fadd f0 b = b := by
  rcases isInf_or_isFinite hb with hinf | hfin
  · exact (fadd_of_isInf hinf (Or.inl isFinite_f0)).2
  · have hb0 := ne_negZero_of_isZero hb0
    exact fadd_eq_of_valOf isFinite_f0 hfin hfin (by decide) hb0 (by rw [valOf_of_isZero (a := f0) rfl, zero_add])

/-- Added to +0.0 a value stays, but -0.0 turns into +0.0; so the sum is no -0.0, and the value taken off again leaves
+0.0. -/
theorem fadd_zero_left_cancel {b : F32} (hb : isFinite b = true) :
    isFinite (fadd f0 b) = true ∧ fadd f0 b ≠ 0x80000000#32 ∧ fsub (fadd f0 b) b = f0 := by
  cases hb0 : isZero b with
  | true =>
    rw [fadd_zero_right isFinite_f0 (by decide) hb0]
    exact ⟨isFinite_f0, by decide, fsub_zero_right isFinite_f0 (by decide) hb0⟩
  | false =>
    rw [fadd_zero_left (isNaN_of_isFinite hb) hb0]
    refine ⟨hb, ne_negZero_of_isZero hb0, ?_⟩
    rw [fsub_eq_fadd_fneg hb (isNaN_of_isFinite hb)]
    refine fadd_eq_of_valOf hb (by rwa [isFinite_fneg]) isFinite_f0 (ne_negZero_of_isZero hb0) (by decide) ?_
    rw [valOf_fneg, add_neg_cancel, valOf_of_isZero (a := f0) rfl]

/-! ### Products and quotients -/

theorem unitsOf_magOf_f1 : unitsOf (magOf f1) = 2 ^ 149 := by decide +kernel

theorem fmul_one {a : F32} (ha : isNaN a = false) : fmul a f1 = a ∧ fmul f1 a = a := by
  rcases isInf_or_isFinite ha with hinf | hfin
  · obtain ⟨hright, hleft⟩ := fmul_of_isInf hinf (b := f1) (by decide) (by decide)
    rw [hright, hleft, ← isInf_iff.1 hinf, show signOf f1 = false from rfl, Bool.xor_false, packF_signOf_magOf]
    exact ⟨rfl, rfl⟩
  · rw [fmul_of_isFinite hfin isFinite_f1, fmul_of_isFinite isFinite_f1 hfin, unitsOf_magOf_f1, Nat.mul_comm (2 ^ 149),
      roundMag_unitsOf_mul (isFinite_iff.1 hfin) (by positivity), show signOf f1 = false from rfl, Bool.xor_false,
      Bool.false_xor, packF_signOf_magOf]
    exact ⟨rfl, rfl⟩

theorem fdiv_one {a : F32} (ha : isNaN a = false) : fdiv a f1 = a := by
  rcases isInf_or_isFinite ha with hinf | hfin
  · rw [(fdiv_of_isInf hinf isFinite_f1).1, ← isInf_iff.1 hinf, show signOf f1 = false from rfl, Bool.xor_false,
      packF_signOf_magOf]
  · rw [fdiv_of_isFinite hfin isFinite_f1 rfl, unitsOf_magOf_f1, roundMag_unitsOf_mul (isFinite_iff.1 hfin)
      (by positivity), show signOf f1 = false from rfl, Bool.xor_false, packF_signOf_magOf]

theorem fdiv_self {a : F32} (ha : isFinite a = true) (ha0 : isZero a = false) : fdiv a a = f1 := by
  rw [fdiv_of_isFinite ha ha ha0, Nat.mul_comm, ← unitsOf_magOf_f1,
    roundMag_unitsOf_mul (by decide) (unitsOf_magOf_pos ha0), Bool.xor_self]
  rfl

theorem isZero_fmul {a b : F32} (ha : isFinite a = true) (hb : isFinite b = true)
    (h : isZero a = true ∨ isZero b = true) : isZero (fmul a b) = true := by
  have hmul : unitsOf (magOf a) * unitsOf (magOf b) = 0 := by
    rcases h with h | h <;> simp [isZero_iff.1 h]
  rw [fmul_of_isFinite ha hb, isZero_iff, magOf_packF_roundMag, hmul, roundMag_zero]

theorem isZero_fdiv {a b : F32} (ha : isZero a = true) (hb : isFinite b = true) (hb0 : isZero b = false) :
    isZero (fdiv a b) = true := by
  rw [fdiv_of_isFinite (isFinite_of_isZero ha) hb hb0, isZero_iff, magOf_packF_roundMag, isZero_iff.1 ha, unitsOf_zero,
    Nat.zero_mul, roundMag_zero]

/-- Doubling does not underflow. -/
theorem isZero_of_isZero_fmul_two {a : F32} (ha : isFinite a = true) (h : isZero (fmul f2 a) = true) :
    isZero a = true := by
  rw [fmul_of_isFinite isFinite_f2 ha, isZero_iff, magOf_packF_roundMag,
    show unitsOf (magOf f2) = 2 ^ 150 by decide +kernel] at h
  have hhalf := two_mul_le_of_roundMag_eq_zero (by positivity) h
  by_contra hne
  have hpos := unitsOf_magOf_pos (by simpa using hne)
  omega

/-- A sign moves from one factor to the other. -/
theorem fmul_fneg_left {a b : F32} (ha : isFinite a = true) (ha0 : isZero a = false) (hb : isNaN b = false) :
    fmul (fneg a) b = fmul a (fneg b) := by
  cases hinf : isInf b <;>
    simp [fmul, isNaN_of_isFinite ha, isInf_of_isFinite ha, ha0, hb, hinf, isZero_of_isInf]

end Sys2Proof.Machine
end

section
/-! SUPPORT. The stage transform (40_biquad_filter.md R86): a NaN stays in a stage, and a stage with b0 = 1.0, b1 = a1 and
b2 = a2 passes an impulse and silence (R90). -/

namespace Sys2Proof.Machine

/-! ### NaN -/

/-- Each of the five values is a factor of one term, and the sum passes every term's NaN on. -/
theorem isNaN_stageOut (k : Coef) {h : Hist} {x : F32}
    (hnan : isNaN x = true ∨ isNaN h.x1 = true ∨ isNaN h.x2 = true ∨ isNaN h.y1 = true ∨ isNaN h.y2 = true) :
    isNaN (stageOut k h x) = true := by
  refine isNaN_fsub ?_
  rcases hnan with hx | hx1 | hx2 | hy1 | hy2
  · exact .inl (isNaN_fsub (.inl (isNaN_fadd (.inl (isNaN_fadd (.inl (isNaN_fmul (.inr hx))))))))
  · exact .inl (isNaN_fsub (.inl (isNaN_fadd (.inl (isNaN_fadd (.inr (isNaN_fmul (.inr hx1))))))))
  · exact .inl (isNaN_fsub (.inl (isNaN_fadd (.inr (isNaN_fmul (.inr hx2))))))
  · exact .inl (isNaN_fsub (.inr (isNaN_fmul (.inr hy1))))
  · exact .inr (isNaN_fmul (.inr hy2))

@[simp] theorem histShift_y1 (h : Hist) (x y : F32) : (histShift h x y).y1 = y := rfl

/-- From a NaN in `y1` on, every output is a NaN, because it becomes the next `y1`. -/
theorem isNaN_of_mem_stageStream {k : Coef} {h : Hist} (hy1 : isNaN h.y1 = true) {xs : List F32} :
    ∀ y ∈ stageStream k h xs, isNaN y = true := by
  induction xs generalizing h with
  | nil => exact fun y hy => absurd hy List.not_mem_nil
  | cons x xs ih =>
    have hout : isNaN (stageOut k h x) = true := isNaN_stageOut k (by simp [hy1])
    exact List.forall_mem_cons.2 ⟨hout, ih (by rwa [histShift_y1])⟩

/-- Settles O18: the output is the new `y1`, and a NaN there keeps every later output a NaN. -/
theorem naNStaysInAStage : Obligations.NaNStaysInAStage := by
  intro k h x hnan
  have hout := isNaN_stageOut k hnan
  have hy1 : isNaN (histShift h x (stageOut k h x)).y1 = true := by rwa [histShift_y1]
  exact ⟨hout, hy1, fun _ => isNaN_of_mem_stageStream hy1⟩

/-! ### Identity sets -/

/-- What O20 supposes of a coefficient set (R90). -/
structure Coef.PassesThrough (k : Coef) : Prop where
  b0 : k.b0 = f1
  b1 : k.b1 = k.a1
  b2 : k.b2 = k.a2
  finite1 : isFinite k.a1 = true
  finite2 : isFinite k.a2 = true

theorem isZero_fmul_f0 {a : F32} (ha : isFinite a = true) : isZero (fmul a f0) = true :=
  isZero_fmul ha isFinite_f0 (Or.inr rfl)

/-- From cleared history only the term of b0 is not a zero. -/
theorem Coef.PassesThrough.stageOut_zero {k : Coef} (hk : k.PassesThrough) {x : F32} (hx : isFinite x = true)
    (hx0 : x ≠ 0x80000000#32) : stageOut k Hist.zero x = x := by
  obtain ⟨hb0, hb1, hb2, hfin1, hfin2⟩ := hk
  have hz1 := isZero_fmul_f0 hfin1
  have hz2 := isZero_fmul_f0 hfin2
  show fsub (fsub (fadd (fadd (fmul k.b0 x) (fmul k.b1 f0)) (fmul k.b2 f0)) (fmul k.a1 f0)) (fmul k.a2 f0) = x
  rw [hb0, hb1, hb2, (fmul_one (isNaN_of_isFinite hx)).2, fadd_zero_right hx hx0 hz1, fadd_zero_right hx hx0 hz2,
    fsub_zero_right hx hx0 hz1, fsub_zero_right hx hx0 hz2]

/-- One sample after the impulse the terms of b1 and a1 cancel. -/
theorem Coef.PassesThrough.stageOut_afterImpulse {k : Coef} (hk : k.PassesThrough) :
    stageOut k ⟨f1, f0, f1, f0⟩ f0 = f0 := by
  obtain ⟨hb0, hb1, hb2, hfin1, hfin2⟩ := hk
  have hz2 := isZero_fmul_f0 hfin2
  obtain ⟨hfin, hne, hcancel⟩ := fadd_zero_left_cancel hfin1
  show fsub (fsub (fadd (fadd (fmul k.b0 f0) (fmul k.b1 f1)) (fmul k.b2 f0)) (fmul k.a1 f1)) (fmul k.a2 f0) = f0
  rw [hb0, hb1, hb2, (fmul_one (a := f0) rfl).2, (fmul_one (isNaN_of_isFinite hfin1)).1, fadd_zero_right hfin hne hz2,
    hcancel, fsub_zero_right isFinite_f0 (by decide) hz2]

/-- Two samples after the impulse the terms of b2 and a2 cancel. -/
theorem Coef.PassesThrough.stageOut_twoAfterImpulse {k : Coef} (hk : k.PassesThrough) :
    stageOut k ⟨f0, f1, f0, f1⟩ f0 = f0 := by
  obtain ⟨hb0, hb1, hb2, hfin1, hfin2⟩ := hk
  have hz1 := isZero_fmul_f0 hfin1
  obtain ⟨hfin, hne, hcancel⟩ := fadd_zero_left_cancel hfin2
  show fsub (fsub (fadd (fadd (fmul k.b0 f0) (fmul k.b1 f0)) (fmul k.b2 f1)) (fmul k.a1 f0)) (fmul k.a2 f1) = f0
  rw [hb0, hb1, hb2, (fmul_one (a := f0) rfl).2, (fmul_one (isNaN_of_isFinite hfin2)).1,
    fadd_zero_right isFinite_f0 (by decide) hz1, fsub_zero_right hfin hne hz1, hcancel]

/-- From this history the stage answers silence with silence. -/
def Hist.Silent (k : Coef) (h : Hist) : Prop := ∀ n, stageStream k h (List.replicate n f0) = List.replicate n f0

theorem stageStream_cons {k : Coef} {h : Hist} {x y : F32} (hout : stageOut k h x = y) (xs : List F32) :
    stageStream k h (x :: xs) = y :: stageStream k (histShift h x y) xs := by
  rw [stageStream, hout]

theorem Hist.Silent.of_histShift {k : Coef} {h : Hist} (hout : stageOut k h f0 = f0)
    (hnext : (histShift h f0 f0).Silent k) : h.Silent k
  | 0 => rfl
  | n + 1 => by rw [List.replicate_succ, stageStream_cons hout, hnext n]

theorem Coef.PassesThrough.silent_zero {k : Coef} (hk : k.PassesThrough) : Hist.zero.Silent k := fun n => by
  have hout : stageOut k Hist.zero f0 = f0 := hk.stageOut_zero isFinite_f0 (by decide)
  induction n with
  | zero => rfl
  | succ n ih =>
    rw [List.replicate_succ, stageStream_cons hout, show histShift Hist.zero f0 f0 = Hist.zero from rfl, ih]

/-- Settles O20: after the impulse two samples cancel term by term, and then the history is cleared again. -/
theorem identityStagePassesAnImpulse : Obligations.IdentityStagePassesAnImpulse := by
  intro k n hb0 hb1 hb2 hfin1 hfin2
  have hk : k.PassesThrough := ⟨hb0, hb1, hb2, hb1 ▸ hfin1, hb2 ▸ hfin2⟩
  have htwo : Hist.Silent k ⟨f0, f1, f0, f1⟩ := .of_histShift hk.stageOut_twoAfterImpulse hk.silent_zero
  have hone : Hist.Silent k ⟨f1, f0, f1, f0⟩ := .of_histShift hk.stageOut_afterImpulse htwo
  refine ⟨?_, hk.silent_zero n⟩
  rw [stageStream_cons (hk.stageOut_zero isFinite_f1 (by decide))]
  exact congrArg (f1 :: ·) (hone n)

end Sys2Proof.Machine
end

section
/-! SUPPORT. The coefficient calculator at a zero gain (40_biquad_filter.md R82 to R85, R90): A is 1.0, so the numerator of
b0 is a0 and numerator by numerator the two halves of a set agree. -/

namespace Sys2Proof.Machine

theorem ampOf_of_isZero {g : F32} (hg : isZero g = true) : ampOf g = f1 :=
  pow32_of_isZero f10 (isZero_fdiv hg (by decide) (by decide))

/-! ### The peaking recipe -/

theorem isFinite_of_isFinite_fdiv_one {a : F32} (h : isFinite (fdiv a f1) = true) : isFinite a = true := by
  cases hnan : isNaN a with
  | true =>
    have hdiv := isNaN_fdiv (b := f1) (Or.inl hnan)
    rw [isNaN_of_isFinite h] at hdiv; cases hdiv
  | false => rwa [fdiv_one hnan] at h

/-- α·A and α/A are both α. -/
theorem peakingSet_one {q sn cs : F32} (hfin : isFinite (fadd f1 (fdiv (fdiv sn (fmul f2 q)) f1)) = true)
    (hne : isZero (fadd f1 (fdiv (fdiv sn (fmul f2 q)) f1)) = false) :
    (peakingSet q f1 sn cs).b0 = f1 ∧ (peakingSet q f1 sn cs).b1 = (peakingSet q f1 sn cs).a1 ∧
      (peakingSet q f1 sn cs).b2 = (peakingSet q f1 sn cs).a2 := by
  have hal := isFinite_of_isFinite_fdiv_one (isFinite_of_isFinite_fadd isFinite_f1 hfin)
  have hsame : fmul (fdiv sn (fmul f2 q)) f1 = fdiv (fdiv sn (fmul f2 q)) f1 := by
    rw [(fmul_one (isNaN_of_isFinite hal)).1, fdiv_one (isNaN_of_isFinite hal)]
  simp only [peakingSet, hsame, fdiv_self hfin hne, and_self]

/-! ### The shelves -/

/-- The set both shelves compute at A = 1.0, from β·sn and the numerators of b1 and a1, which they write in opposite
order. -/
def unitShelf (bs b1 a1 : F32) : Coef :=
  { b0 := fdiv (fmul f1 (fadd f2 bs)) (fadd f2 bs)
    b1 := fdiv b1 (fadd f2 bs)
    b2 := fdiv (fmul f1 (fsub f2 bs)) (fadd f2 bs)
    a1 := fdiv a1 (fadd f2 bs)
    a2 := fdiv (fsub f2 bs) (fadd f2 bs) }

/-- The numerator of b1 of the low shelf and of a1 of the high shelf. -/
def diffNumerator (cs : F32) : F32 := fmul f2 (fsub f0 (fmul f2 cs))

/-- The numerator of a1 of the low shelf and of b1 of the high shelf. -/
def sumNumerator (cs : F32) : F32 := fmul fNeg2 (fadd f0 (fmul f2 cs))

theorem fadd_f1_f1 : fadd f1 f1 = f2 := by decide +kernel
theorem fsub_f1_f1 : fsub f1 f1 = f0 := by decide +kernel

/-- The term (A - 1)·cos w is a zero, and leaves A + 1 unchanged, which is 2.0. -/
theorem amp_one_terms {cs : F32} (hcs : isFinite cs = true) :
    fadd f2 (fmul f0 cs) = f2 ∧ fsub f2 (fmul f0 cs) = f2 := by
  have hzero : isZero (fmul f0 cs) = true := isZero_fmul isFinite_f0 hcs (Or.inl rfl)
  exact ⟨fadd_zero_right isFinite_f2 (by decide) hzero, fsub_zero_right isFinite_f2 (by decide) hzero⟩

theorem lowShelfSet_one (q sn : F32) {cs : F32} (hcs : isFinite cs = true) :
    lowShelfSet q f1 sn cs =
      unitShelf (fmul (fdiv (fsqrt f1) q) sn) (diffNumerator cs) (sumNumerator cs) := by
  obtain ⟨hadd, hsub⟩ := amp_one_terms hcs
  simp only [lowShelfSet, hadd, hsub, fadd_f1_f1, fsub_f1_f1, (fmul_one (a := f2) rfl).1]
  rfl

theorem highShelfSet_one (q sn : F32) {cs : F32} (hcs : isFinite cs = true) :
    highShelfSet q f1 sn cs =
      unitShelf (fmul (fdiv (fsqrt f1) q) sn) (sumNumerator cs) (diffNumerator cs) := by
  obtain ⟨hadd, hsub⟩ := amp_one_terms hcs
  simp only [highShelfSet, hadd, hsub, fadd_f1_f1, fsub_f1_f1, (fmul_one (a := fNeg2) rfl).1]
  rfl

/-- The numerators differ at most in the sign of a zero, and that only for a zero cosine. -/
theorem diffNumerator_eq_sumNumerator {cs : F32} (hcs : isFinite cs = true) :
    diffNumerator cs = sumNumerator cs ∨
      isZero cs = true ∧ isZero (diffNumerator cs) = true ∧ isZero (sumNumerator cs) = true := by
  have hnan : isNaN (fmul f2 cs) = false := by
    rw [fmul_of_isFinite isFinite_f2 hcs]; exact isNaN_packF_roundMag ..
  unfold diffNumerator sumNumerator
  cases hzero : isZero (fmul f2 cs) with
  | true =>
    right
    rw [fadd_zero_right isFinite_f0 (by decide) hzero, fsub_zero_right isFinite_f0 (by decide) hzero]
    exact ⟨isZero_of_isZero_fmul_two hcs hzero, isZero_fmul_f0 isFinite_f2, isZero_fmul_f0 (by decide)⟩
  | false =>
    left
    rw [fsub_eq_fadd_fneg isFinite_f0 hnan, fadd_zero_left (by rwa [isNaN_fneg]) (by rwa [isZero_fneg]),
      fadd_zero_left hnan hzero, ← fmul_fneg_left isFinite_f2 rfl hnan]
    rfl

/-- What R90 says of a shelf's set, with `bs` and the numerators of b1 and a1 given. -/
theorem unitShelf_identity {bs b1 a1 cs : F32} (hfin : isFinite (fadd f2 bs) = true) (hne : isZero (fadd f2 bs) = false)
    (hnum : b1 = a1 ∨ isZero cs = true ∧ isZero b1 = true ∧ isZero a1 = true) :
    (unitShelf bs b1 a1).b0 = f1 ∧ (unitShelf bs b1 a1).b2 = (unitShelf bs b1 a1).a2 ∧
      ((unitShelf bs b1 a1).b1 = (unitShelf bs b1 a1).a1 ∨
        isZero cs = true ∧ isZero (unitShelf bs b1 a1).b1 = true ∧ isZero (unitShelf bs b1 a1).a1 = true) := by
  have hbs := isFinite_of_isFinite_fadd isFinite_f2 hfin
  have hdiff := isNaN_fsub_of_isFinite isFinite_f2 hbs
  simp only [unitShelf, (fmul_one (isNaN_of_isFinite hfin)).2, (fmul_one hdiff).2, fdiv_self hfin hne, true_and]
  rcases hnum with rfl | ⟨hcs, hb1, ha1⟩
  · exact Or.inl rfl
  · exact Or.inr ⟨hcs, isZero_fdiv hb1 hfin hne, isZero_fdiv ha1 hfin hne⟩

/-- Settles O19: a zero gain gives A = 1.0, and then each recipe's own lemma applies. -/
theorem zeroGainGivesAnIdentitySet : Obligations.ZeroGainGivesAnIdentitySet := by
  intro g q sn cs hg _ hcs
  obtain ⟨hadd, hsub⟩ := amp_one_terms hcs
  have hnum := diffNumerator_eq_sumNumerator hcs
  rw [ampOf_of_isZero hg, fadd_f1_f1, fsub_f1_f1, hadd, hsub, lowShelfSet_one q sn hcs, highShelfSet_one q sn hcs]
  refine ⟨peakingSet_one, fun hfin hne => unitShelf_identity hfin hne hnum,
    fun hfin hne => unitShelf_identity hfin hne ?_⟩
  exact hnum.imp Eq.symm fun ⟨hzero, hdiff, hsum⟩ => ⟨hzero, hsum, hdiff⟩

end Sys2Proof.Machine
end

section
/-! SUPPORT. The control commands (41_control.md R100 to R107): the response around an effect, what each command's effect
leaves in the registers, the clamp's three cases, and the mode after a message. -/

namespace Sys2Proof.Machine

/-! ### The response around an effect -/

@[simp] theorem State.histAt_respond (s : State) (r : Response) (b : Band) (c : Channel) :
    (s.respond r).histAt b c = s.histAt b c := State.histAt_congr (s.respond_hist r) b c

/-- No effect of a command reaches ports, agents or launch (R69, R148). -/
theorem Effect.host {s u : State} {i : Instr} (h : Effect s i u) : s.HostSame u := by
  cases h <;> exact ⟨rfl, rfl, rfl, rfl, rfl, rfl⟩

/-- A response recorded after an effect is the only thing that reaches the ports. -/
theorem Effect.respond_frame {s u : State} {i : Instr} (h : Effect s i u) (w : Word) :
    s.LaunchSame (u.respond (Response.done w)) ∧ s.Answered (u.respond (Response.done w)) ⟨w, .ok⟩ := by
  have hserving : u.serving = s.serving := h.host.serving
  obtain ⟨-, -, hlaunch⟩ := h.host
  refine ⟨by simpa [State.LaunchSame] using hlaunch, ?_, fun p hp => ?_⟩
  · rw [← hserving, State.port_respond_serving, h.host.port, Response.done]
  · rw [State.port_respond_other _ (hserving ▸ hp), h.host.port]

/-! ### GETGAIN, SETEN, GETEN -/

/-- Settles O25: `GETGAIN` of a band is its response alone. -/
theorem getgainAnswersTheGain : Obligations.GetgainAnswersTheGain := by
  intro b k s hb
  refine ⟨s.respond (Response.done (s.gainAt k)), ?_, s.respond_onlyAnswered _⟩
  rw [exec, execGetgain, hb]

/-- Settles O26: the effect of `SETEN` is an update of `EN`. -/
theorem setenWritesEnableOnly : Obligations.SetenWritesEnableOnly := by
  intro e s
  refine ⟨({ s with en := e } : State).respond (Response.done 0#32), rfl, ?_⟩
  simpa using (Effect.seten e).respond_frame 0#32

/-- Settles O27: `GETEN` is its response alone, the zero-extended bit. -/
theorem getenAnswersTheEnable : Obligations.GetenAnswersTheEnable := by
  intro s
  have hword : zext32 s.en = if s.en then 1#32 else 0#32 := by cases s.en <;> rfl
  rw [← hword]
  exact ⟨s.respond (Response.done (zext32 s.en)), rfl, s.respond_onlyAnswered _⟩

/-! ### INIT -/

/-- The registers, the memory and the draws after an `INIT` (R100). -/
theorem Effect.init_regs {fs : F32} {s u : State} (h : Effect s (.init fs) u) :
    u.fs = some fs ∧ u.initd = true ∧ (∀ b c, u.coefAt b c = bandCoef b fs (s.gainAt b)) ∧
      u.gain = s.gain ∧ u.en = s.en ∧ u.hist = s.hist ∧ u.mem = s.mem ∧ u.draws = s.draws := by
  cases h with
  | init _ k hk => exact ⟨rfl, rfl, hk, rfl, rfl, rfl, rfl, rfl⟩

/-- Settles O22: `INIT` always completes, with its effect and its response. -/
theorem initTunesEveryBand : Obligations.InitTunesEveryBand := by
  intro fs s
  have heffect := effect_init fs s
  refine ⟨_, rfl, ?_⟩
  simpa [and_assoc] using And.intro heffect.init_regs (heffect.respond_frame 0#32)

/-! ### CLAMP and SETGAIN -/

theorem flt_eq_false_of_fle {a b : F32} (h : fle a b = true) : flt b a = false := by
  simp only [fle, Bool.and_eq_true, decide_eq_true_eq] at h
  obtain ⟨-, hle⟩ := h
  simp [flt, hle]

theorem fle_of_fle_of_flt {a b c : F32} (h : fle a b = true) (h' : flt b c = true) : fle a c = true := by
  simp only [fle, Bool.and_eq_true, decide_eq_true_eq] at h
  simp only [flt, Bool.and_eq_true, decide_eq_true_eq] at h'
  obtain ⟨⟨ha, -⟩, hle⟩ := h
  obtain ⟨⟨-, hc⟩, hlt⟩ := h'
  simp [fle, ha, hc, hle.trans hlt.le]

/-- An ordered comparison that holds has no NaN operand (R12). -/
theorem isNaN_of_flt {a b : F32} (h : flt a b = true) : isNaN a = false ∧ isNaN b = false := by
  simp only [flt, Bool.and_eq_true, Bool.not_eq_true'] at h
  exact h.1

theorem clampNumber_of_flt {g : F32} (h : flt g fNeg30 = true) : clampNumber g = fNeg30 := if_pos h

theorem clampNumber_of_fgt {g : F32} (h : fgt g f30 = true) : clampNumber g = f30 := by
  have hnotBelow : flt g fNeg30 = false := flt_eq_false_of_fle (fle_of_fle_of_flt (b := f30) (by decide) h)
  simp [clampNumber, hnotBelow, h]

theorem clampNumber_of_inRange {g : F32} (h : inRange fNeg30 f30 g = true) : clampNumber g = g := by
  obtain ⟨hlo, hhi⟩ := Bool.and_eq_true_iff.1 h
  simp [clampNumber, fgt, flt_eq_false_of_fle hlo, flt_eq_false_of_fle hhi]

theorem State.clamp_state_of_not_isNaN (s : State) {g : F32} (hg : isNaN g = false) : (s.clamp g).2 = s := by
  rw [State.clamp, hg]; rfl

/-- Settles O30: below, above and inside the range the operand is no NaN, so the clamp is `clampNumber`. -/
theorem clampLandsInTheGainRange : Obligations.ClampLandsInTheGainRange := by
  intro s g
  refine ⟨s.clamp_inRange g, s.clamp_state_of_not_isNaN, fun hbelow => ?_, fun habove => ?_, fun hin => ?_⟩
  · exact (s.clamp_of_not_isNaN (isNaN_of_flt hbelow).1).trans (clampNumber_of_flt hbelow)
  · exact (s.clamp_of_not_isNaN (isNaN_of_flt habove).2).trans (clampNumber_of_fgt habove)
  · exact (s.clamp_of_not_isNaN (isNaN_of_inRange hin)).trans (clampNumber_of_inRange hin)

theorem Effect.setgain_draws {w : BitVec 4} {b : Band} {g : F32} {s u : State} (h : Effect s (.setgain w g) u)
    (hb : bandIndex w = some b) : u.draws = (s.clamp g).2.draws := by
  cases h with
  | setgainInert _ _ hnone => cases hb.symm.trans hnone
  | setgain => rfl

/-- Settles O23: the new gain is the clamp's result, and only a NaN takes a draw. -/
theorem setgainStoresAndRetunesOneBand : Obligations.SetgainStoresAndRetunesOneBand := by
  intro b k g s hb
  obtain ⟨u, hexec, heffect⟩ := exec_setgain_of_band hb g s
  obtain ⟨hgain, hothers, hcoefs, hen, hinitd, hfs, hhist, hmem⟩ := heffect.setgain_regs hb
  rw [← hgain] at hcoefs
  have hrange : inRange fNeg30 f30 (u.gainAt k) = true := hgain ▸ s.clamp_inRange g
  have hnumber (hg : isNaN g = false) : u.gainAt k = clampNumber g := hgain.trans (s.clamp_of_not_isNaN hg)
  have hdraws (hg : isNaN g = false) : u.draws = s.draws :=
    (heffect.setgain_draws hb).trans (congrArg State.draws (s.clamp_state_of_not_isNaN hg))
  refine ⟨_, hexec, ?_⟩
  simpa using
    ⟨hrange, hnumber, hothers, hcoefs, hen, hinitd, hfs, hhist, hmem, hdraws, heffect.respond_frame 0#32⟩

/-! ### RESET -/

/-- The registers, the memory and the draws after a `RESET` (R106). -/
theorem Effect.reset_regs {s u : State} (h : Effect s .reset u) :
    (∀ b, u.gainAt b = f0) ∧ (∀ b c, u.coefAt b c = if s.initd then bandCoef b s.rate f0 else s.coefAt b c) ∧
      (∀ b c, u.histAt b c = Hist.zero) ∧
      u.en = s.en ∧ u.initd = s.initd ∧ u.fs = s.fs ∧ u.mem = s.mem ∧ u.draws = s.draws := by
  cases h with
  | reset k hk =>
    refine ⟨fun b => Vector.getElem_replicate _, hk, fun b c => ?_, rfl, rfl, rfl, rfl, rfl⟩
    have hpair : (Vector.replicate 9 (Stereo.mk Hist.zero Hist.zero))[b.val] = ⟨Hist.zero, Hist.zero⟩ :=
      Vector.getElem_replicate _
    rw [State.histAt, hpair]
    cases c <;> rfl

/-- Settles O28: `RESET` always completes, with its effect and its response. -/
theorem resetFlattensAndClears : Obligations.ResetFlattensAndClears := by
  intro s
  have heffect := effect_reset s
  refine ⟨_, rfl, ?_⟩
  simpa [and_assoc, f0, Hist.zero] using And.intro heffect.reset_regs (heffect.respond_frame 0#32)

/-- Settles O29: what O28 says of the second `RESET` are the values the first one left, register by register. -/
theorem resetTwiceIsResetOnce : Obligations.ResetTwiceIsResetOnce := by
  intro s
  obtain ⟨t, hexec, hgain, hcoef, hhist, -, hinitd, hfs, -⟩ := resetFlattensAndClears s
  obtain ⟨u, hexec', hgain', hcoef', hhist', hen', hinitd', hfs', hmem', -⟩ := resetFlattensAndClears t
  refine ⟨t, u, hexec, hexec', ⟨State.gain_ext fun b => (hgain' b).trans (hgain b).symm, hen', hinitd', hfs',
    State.coef_ext fun b c => ?_, State.hist_ext fun b c => (hhist' b c).trans (hhist b c).symm⟩, hmem'⟩
  rw [hcoef', hinitd, State.rate_congr hfs, hcoef]
  cases s.initd <;> rfl

/-! ### Modes -/

/-- `INIT` alone makes an uninitialized block `Ready`, and no command undoes it (R107). -/
theorem Effect.initd_iff {s u : State} {i : Instr} (h : Effect s i u) :
    u.initd = true ↔ s.initd = true ∨ ∃ fs, i = .init fs := by
  cases h with
  | init fs => exact ⟨fun _ => .inr ⟨fs, rfl⟩, fun _ => rfl⟩
  | _ => exact ⟨.inl, fun h => h.resolve_right nofun⟩

/-- Settles O32: a command has its effect, and an `ILLEGAL` message changes no register. -/
theorem modeTransitionsFollowTheTable : Obligations.ModeTransitionsFollowTheTable := by
  intro p m s t h
  obtain ⟨i, hdecode, hexec⟩ | ⟨e, hdecode, rfl⟩ := performMessage_cases h
  · obtain ⟨u, w, rfl, heffect⟩ := exec_next_effect hexec
    simpa [hdecode] using heffect.initd_iff
  · simp [hdecode]

end Sys2Proof.Machine
end

section
/-! SUPPORT. The limiter (42_audio_pipeline.md R124), and when `PROCESS` completes and what it leaves alone (R120 to R122;
20_memory.md R45 to R47). -/

namespace Sys2Proof.Machine

/-! ### The limiter -/

/-- The two tests of the limiter exclude each other, so their order does not matter (R124). -/
theorem clipNumber_eq_cutoff (y : F32) :
    clipNumber y = if flt y fNeg1 then fNeg1 else if fgt y f1 then f1 else y := by
  unfold clipNumber
  cases habove : fgt y f1 with
  | true =>
    have hnotBelow : flt y fNeg1 = false := flt_eq_false_of_fle (fle_of_fle_of_flt (b := f1) (by decide) habove)
    simp [hnotBelow]
  | false => rfl

theorem inRange_clipNumber {y : F32} (hy : isNaN y = false) : inRange fNeg1 f1 (clipNumber y) = true := by
  rw [clipNumber_eq_cutoff]
  exact inRange_cutoff (by decide) (by decide) hy

theorem clipNumber_of_inRange {y : F32} (h : inRange fNeg1 f1 y = true) : clipNumber y = y := by
  obtain ⟨hlo, hhi⟩ := Bool.and_eq_true_iff.1 h
  simp [clipNumber, fgt, flt_eq_false_of_fle hlo, flt_eq_false_of_fle hhi]

theorem State.clip_of_not_isNaN (s : State) {y : F32} (hy : isNaN y = false) : s.clip y = (clipNumber y, s) := by
  rw [State.clip, hy]; rfl

/-- `v` is a clipped `y`: `clipNumber y`, or any value of the range where `y` is a NaN (R124). -/
def ClippedTo (y v : F32) : Prop :=
  (isNaN y = false → v = clipNumber y) ∧ (isNaN y = true → inRange fNeg1 f1 v = true)

theorem ClippedTo.inRange {y v : F32} (h : ClippedTo y v) : inRange fNeg1 f1 v = true := by
  cases hy : isNaN y with
  | true => exact h.2 hy
  | false => rw [h.1 hy]; exact inRange_clipNumber hy

theorem State.clip_clippedTo (s : State) (y : F32) : ClippedTo y (s.clip y).1 := by
  refine ⟨fun hy => by rw [s.clip_of_not_isNaN hy], fun hy => ?_⟩
  rw [State.clip, if_pos hy]
  exact s.draw_inRange (by decide)

/-- Settles O38: above, below and inside the range the operand is no NaN, so the limiter is `clipNumber`. -/
theorem clipLandsInTheSampleRange : Obligations.ClipLandsInTheSampleRange := by
  intro s y
  refine ⟨(s.clip_clippedTo y).inRange, fun hy => by rw [s.clip_of_not_isNaN hy], fun habove => ?_, fun hbelow => ?_,
    fun hin => ?_⟩
  · rw [s.clip_of_not_isNaN (isNaN_of_flt habove).2]
    exact if_pos habove
  · rw [s.clip_of_not_isNaN (isNaN_of_flt hbelow).1, clipNumber_eq_cutoff]
    exact if_pos hbelow
  · rw [s.clip_of_not_isNaN (isNaN_of_inRange hin)]
    exact clipNumber_of_inRange hin

/-! ### PROCESS: when it completes and what it leaves alone -/

/-- Settles O33: an inactive `PROCESS` is its response alone. -/
theorem inactiveProcessDoesNothing : Obligations.InactiveProcessDoesNothing := by
  intro base nframes nchan s
  refine ⟨s.active_iff, fun hoff => ⟨s.respond (Response.done 0#32), ?_, s.respond_onlyAnswered _⟩⟩
  rw [exec, execProcess, hoff]
  rfl

/-- An active `PROCESS` completes exactly when its region is empty or admitted, and then it is the sample loop and its
response (R47, R120). -/
theorem exec_process_next_iff {base nframes nchan : Word} {s t : State} (hs : s.active = true) :
    exec (.process base nframes nchan) s = .next t ↔
      (0 < nframes.toNat * nchan.toNat → s.bufOk base.toNat (nframes.toNat * nchan.toNat) = true) ∧
      (State.processFrames base.toNat nchan.toNat nframes.toNat 0 s).respond (Response.done 0#32) = t := by
  obtain ⟨hoff, -⟩ | ⟨-, hpos, hbad, hexec⟩ | ⟨-, hbuf, hexec⟩ := execProcess_cases base nframes nchan s
  · cases hs.symm.trans hoff
  · refine ⟨fun h => ?_, fun ⟨hbuf, _⟩ => ?_⟩
    · cases hexec.symm.trans h
    · cases hbad.symm.trans (hbuf hpos)
  · rw [exec, hexec, Host.Outcome.next.injEq]
    exact (and_iff_right hbuf).symm

theorem effect_process {base nframes nchan : Word} {s : State} (hs : s.active = true)
    (hbuf : 0 < nframes.toNat * nchan.toNat → s.bufOk base.toNat (nframes.toNat * nchan.toNat) = true) :
    Effect s (.process base nframes nchan) (State.processFrames base.toNat nchan.toNat nframes.toNat 0 s) := by
  have hrun := State.processFrames_same base.toNat nchan.toNat nframes.toNat 0 s
  rw [hrun]
  exact .process _ _ _ hs hbuf _ _ _ hrun

theorem State.processSample_coef (s : State) (base nchan f : Nat) (c : Channel) :
    (s.processSample base nchan f c).coef = s.coef := by
  rw [s.processSample_same base nchan f c]

/-- The histories after one processed sample are the chain's. -/
theorem State.processSample_hist (s : State) (base nchan f : Nat) (c : Channel) :
    (s.processSample base nchan f c).hist = (s.chain c (s.memRead (sampleAddr base f c nchan))).2.hist := by
  rw [State.processSample, State.memWrite_hist, State.clip_eq]

theorem State.histAt_processSample_other (s : State) (base nchan f : Nat) {c c' : Channel} (h : c' ≠ c) (b : Band) :
    (s.processSample base nchan f c).histAt b c' = s.histAt b c' :=
  (State.histAt_congr (s.processSample_hist base nchan f c) b c').trans (s.chain_histAt_other h _ b)

theorem State.read_processFrames_other (s : State) {base nchan count x : Nat}
    (hx : ¬IsSampleWord base count nchan (x / 4)) :
    (State.processFrames base nchan count 0 s).mem.read x = s.mem.read x := by
  refine State.processFrames_keeps (fun u => u.mem.read x = s.mem.read x) count (fun f hf c hc u hu => ?_) rfl
  have hword : x / 4 ≠ sampleAddr base f c nchan := fun h => hx ⟨f, by omega, c, hc, h⟩
  obtain ⟨v, hmem⟩ := u.processSample_mem base nchan f c
  rw [hmem, Memory.read_writeWord_other hword, hu]

theorem State.histAt_processFrames_other (s : State) {base nchan count : Nat} {c : Channel}
    (hc : c ∉ processedChannels nchan) (b : Band) :
    (State.processFrames base nchan count 0 s).histAt b c = s.histAt b c := by
  refine State.processFrames_keeps (fun u => u.histAt b c = s.histAt b c) count (fun f _ c' hc' u hu => ?_) rfl
  have hne : c ≠ c' := fun h => hc (h ▸ hc')
  rw [u.histAt_processSample_other base nchan f hne, hu]

/-- An empty region has no samples, so the loop does nothing (R46). -/
theorem State.processFrames_of_empty (s : State) {base nchan count : Nat} (h : count * nchan = 0) :
    State.processFrames base nchan count 0 s = s := by
  refine State.processFrames_keeps (fun u => u = s) count (fun f hf c hc _ _ => ?_) rfl
  have hpos : 0 < count * nchan := Nat.mul_pos (by omega) (Nat.zero_lt_of_lt (index_lt_of_mem_processed hc))
  omega

/-- Settles O35: the sample loop's frame, and the response around it. -/
theorem activeProcessCompletes : Obligations.ActiveProcessCompletes := by
  intro base nframes nchan s hs hbuf
  have hsame := State.processFrames_same base.toNat nchan.toNat nframes.toNat 0 s
  obtain ⟨hlaunch, hanswered⟩ := (effect_process hs hbuf).respond_frame 0#32
  refine ⟨_, (exec_process_next_iff hs).2 ⟨hbuf, rfl⟩, ?_, ?_, ?_, ?_, ?_, fun x hx => ?_, fun b c hc => ?_,
    fun hempty => ?_, hlaunch, hanswered⟩
  · rw [State.respond_gain, hsame]
  · rw [State.respond_en, hsame]
  · rw [State.respond_initd, hsame]
  · rw [State.respond_fs, hsame]
  · rw [State.respond_coef, hsame]
  · rw [State.respond_mem, s.read_processFrames_other hx]
  · rw [State.histAt_respond, s.histAt_processFrames_other hc]
  · rw [State.respond_mem, State.respond_hist, s.processFrames_of_empty hempty]
    exact ⟨rfl, rfl⟩

end Sys2Proof.Machine
end

section
/-! SUPPORT. One channel of the sample pipeline (42_audio_pipeline.md R120, R123, R125): its chain is `chainRef`, the samples
of the other channel leave it alone, and so its part of the sample loop is `streamRef` with the outputs clipped. -/

namespace Sys2Proof.Machine

/-! ### The chain of one channel -/

/-- The chain of channel `c` over the bands of a list; `State.chain` is the one over `allBands` (R123). -/
def State.chainOver (s : State) (c : Channel) (l : List Band) (x : F32) : F32 × State :=
  l.foldl (fun p b => p.2.stageProcess b c p.1) (x, s)

theorem State.chain_eq_chainOver (s : State) (c : Channel) (x : F32) : s.chain c x = s.chainOver c allBands x := rfl

theorem State.chainOver_cons (s : State) (c : Channel) (b : Band) (l : List Band) (x : F32) :
    s.chainOver c (b :: l) x = (s.stageProcess b c x).2.chainOver c l (s.stageProcess b c x).1 := by
  rw [State.chainOver, List.foldl_cons, State.chainOver]

theorem State.histAt_stageProcess_same (s : State) (b : Band) (c : Channel) (x : F32) :
    (s.stageProcess b c x).2.histAt b c = histShift (s.histAt b c) x (stageOut (s.coefAt b c) (s.histAt b c) x) :=
  s.histAt_setHist_same b c _

theorem State.histAt_stageProcess_otherBand (s : State) {b b' : Band} (h : b' ≠ b) (c : Channel) (x : F32) :
    (s.stageProcess b c x).2.histAt b' c = s.histAt b' c :=
  s.histAt_setHist_otherBand h c c _

theorem State.coefAt_stageProcess (s : State) (b b' : Band) (c c' : Channel) (x : F32) :
    (s.stageProcess b c x).2.coefAt b' c' = s.coefAt b' c' := rfl

theorem State.histAt_chainOver_of_notMem (s : State) {b : Band} {l : List Band} (hb : b ∉ l) (c : Channel) (x : F32) :
    (s.chainOver c l x).2.histAt b c = s.histAt b c := by
  refine foldl_keeps_mem (fun p : F32 × State => p.2.histAt b c = s.histAt b c) _ l (fun b' hb' p hp => ?_) (x, s) rfl
  have hne : b ≠ b' := fun h => hb (h ▸ hb')
  rw [p.2.histAt_stageProcess_otherBand hne, hp]

/-- The stages of channel `c` in the order of a list of bands. -/
def State.stagesOver (s : State) (c : Channel) (l : List Band) : List (Coef × Hist) :=
  l.map fun b => (s.coefAt b c, s.histAt b c)

theorem State.stagesOver_stageProcess (s : State) {b : Band} {l : List Band} (hb : b ∉ l) (c : Channel) (x : F32) :
    (s.stageProcess b c x).2.stagesOver c l = s.stagesOver c l := by
  refine List.map_congr_left fun b' hb' => ?_
  have hne : b' ≠ b := fun h => hb (h ▸ hb')
  rw [s.coefAt_stageProcess, s.histAt_stageProcess_otherBand hne]

/-- Over distinct bands no stage meets another's history, so the chain is the reference on the list of stages. -/
theorem State.chainRef_stagesOver {l : List Band} (hl : l.Nodup) (s : State) (c : Channel) (x : F32) :
    chainRef (s.stagesOver c l) x = ((s.chainOver c l x).1, l.map fun b => (s.chainOver c l x).2.histAt b c) := by
  induction l generalizing s x with
  | nil => rfl
  | cons b l ih =>
    obtain ⟨hb, hl⟩ := List.nodup_cons.1 hl
    have hrest := ih hl (s.stageProcess b c x).2 (s.stageProcess b c x).1
    rw [s.stagesOver_stageProcess hb] at hrest
    rw [State.chainOver_cons, List.map_cons, State.histAt_chainOver_of_notMem _ hb, s.histAt_stageProcess_same]
    exact congrArg (fun r : F32 × List Hist => (r.1, histShift (s.histAt b c) x _ :: r.2)) hrest

/-- `chainRef` on the stages of a channel (R123). -/
def State.chainRefOf (s : State) (c : Channel) (x : F32) : F32 × List Hist :=
  chainRef ((s.coefsOf c).zip (s.histsOf c)) x

theorem State.chainRefOf_eq (s : State) (c : Channel) (x : F32) :
    s.chainRefOf c x = ((s.chain c x).1, (s.chain c x).2.histsOf c) := by
  have hzip : (s.coefsOf c).zip (s.histsOf c) = s.stagesOver c allBands := List.zip_map'
  rw [State.chainRefOf, hzip, State.chainRef_stagesOver (by decide), ← State.chain_eq_chainOver]
  rfl

theorem State.coefsOf_congr {s t : State} {c : Channel} (h : ∀ b, t.coefAt b c = s.coefAt b c) :
    t.coefsOf c = s.coefsOf c := List.map_congr_left fun b _ => h b

theorem State.histsOf_eq_iff {s t : State} {c : Channel} :
    t.histsOf c = s.histsOf c ↔ ∀ b, t.histAt b c = s.histAt b c := by
  simp [State.histsOf]

/-- Settles O21: the chain is `chainRef` of the channel's own coefficients and histories. -/
theorem channelsAreIndependent : Obligations.ChannelsAreIndependent := by
  intro s t c x hcoef hhist
  have hchain : s.chainRefOf c x = t.chainRefOf c x := by
    rw [State.chainRefOf, State.chainRefOf, State.coefsOf_congr hcoef, State.histsOf_eq_iff.2 hhist]
  rw [State.chainRefOf_eq, State.chainRefOf_eq, Prod.mk.injEq] at hchain
  obtain ⟨hout, hhists⟩ := hchain
  exact ⟨hout, State.histsOf_eq_iff.1 hhists, fun b c' hc' => s.chain_histAt_other hc' x b⟩

/-! ### One processed sample and one frame -/

theorem State.histsOf_processSample (s : State) (base nchan f : Nat) (c : Channel) :
    (s.processSample base nchan f c).histsOf c = (s.chainRefOf c (s.memRead (sampleAddr base f c nchan))).2 := by
  rw [State.chainRefOf_eq]
  exact State.histsOf_eq_iff.2 fun b => State.histAt_congr (s.processSample_hist base nchan f c) b c

theorem State.wf_processSample {s : State} (h : s.mem.wf = true) (base nchan f : Nat) (c : Channel) :
    (s.processSample base nchan f c).mem.wf = true := by
  obtain ⟨v, hmem⟩ := s.processSample_mem base nchan f c
  rw [hmem]
  exact Memory.wf_writeWord h _ v

theorem State.memRead_processSample_other (s : State) {base nchan f a : Nat} {c : Channel}
    (h : a ≠ sampleAddr base f c nchan) : (s.processSample base nchan f c).memRead a = s.memRead a := by
  obtain ⟨v, hmem⟩ := s.processSample_mem base nchan f c
  rw [State.memRead, hmem]
  exact Memory.readWord_writeWord_other _ h v

/-- The word one processed sample writes is a clipped output of the chain (R120). -/
theorem State.processSample_writes (s : State) (base nchan f : Nat) (c : Channel) :
    ∃ v, ClippedTo (s.chain c (s.memRead (sampleAddr base f c nchan))).1 v ∧
      (s.processSample base nchan f c).mem = s.mem.writeWord (sampleAddr base f c nchan) v := by
  refine ⟨_, State.clip_clippedTo (s.chain c (s.memRead (sampleAddr base f c nchan))).2 _, ?_⟩
  rw [State.processSample, State.memWrite_mem, State.clip_eq, State.chain_eq]

theorem State.memRead_processSample_same {s : State} (h : s.mem.wf = true) (base nchan f : Nat) (c : Channel) :
    ClippedTo (s.chainRefOf c (s.memRead (sampleAddr base f c nchan))).1
      ((s.processSample base nchan f c).memRead (sampleAddr base f c nchan)) := by
  obtain ⟨v, hv, hmem⟩ := s.processSample_writes base nchan f c
  have hread : (s.processSample base nchan f c).memRead (sampleAddr base f c nchan) = v := by
    rw [State.memRead, hmem, Memory.readWord_writeWord_same h]
  rwa [State.chainRefOf_eq, hread]

/-- From `s` to `t` nothing of channel `c` changed: its stages and its sample words are the same, and a
canonical memory stays canonical. -/
structure State.ChannelKept (base nchan : Nat) (c : Channel) (s t : State) : Prop where
  coefs : t.coefsOf c = s.coefsOf c
  hists : t.histsOf c = s.histsOf c
  words : ∀ f, t.memRead (sampleAddr base f c nchan) = s.memRead (sampleAddr base f c nchan)
  wf : s.mem.wf = true → t.mem.wf = true

theorem State.ChannelKept.refl (base nchan : Nat) (c : Channel) (s : State) : State.ChannelKept base nchan c s s :=
  ⟨rfl, rfl, fun _ => rfl, id⟩

theorem State.coefsOf_processSample (s : State) (base nchan f : Nat) (c c' : Channel) :
    (s.processSample base nchan f c').coefsOf c = s.coefsOf c :=
  State.coefsOf_congr fun b => State.coefAt_congr (s.processSample_coef base nchan f c') b c

/-- A sample of the other channel keeps the channel (R125). -/
theorem State.ChannelKept.processSample {base nchan f : Nat} {c c' : Channel} {s t : State}
    (h : State.ChannelKept base nchan c s t) (hc : c ∈ processedChannels nchan) (hc' : c' ∈ processedChannels nchan)
    (hne : c ≠ c') : State.ChannelKept base nchan c s (t.processSample base nchan f c') where
  coefs := (t.coefsOf_processSample base nchan f c c').trans h.coefs
  hists := (State.histsOf_eq_iff.2 (t.histAt_processSample_other base nchan f hne)).trans h.hists
  words f' := (t.memRead_processSample_other fun haddr => hne (sampleAddr_inj hc hc' haddr).2).trans (h.words f')
  wf hs := State.wf_processSample (h.wf hs) base nchan f c'

theorem State.ChannelKept.foldl_processSample {base nchan f : Nat} {c : Channel} {s : State} {l : List Channel}
    (hc : c ∈ processedChannels nchan) (hl : l ⊆ processedChannels nchan) (hnot : c ∉ l) :
    State.ChannelKept base nchan c s (l.foldl (fun t c' => t.processSample base nchan f c') s) := by
  refine foldl_keeps_mem (State.ChannelKept base nchan c s) _ l (fun c' hc' t ht => ?_) s (.refl base nchan c s)
  exact ht.processSample hc (hl hc') fun h => hnot (h ▸ hc')

theorem processedChannels_nodup (nchan : Nat) : (processedChannels nchan).Nodup :=
  List.Nodup.sublist (List.take_sublist _ _) (by decide)

/-- For a processed channel a frame is one sample of it, with steps before and after that keep the channel. -/
theorem State.processFrame_channel (s : State) (base f : Nat) {nchan : Nat} {c : Channel}
    (hc : c ∈ processedChannels nchan) : ∃ u, State.ChannelKept base nchan c s u ∧
      State.ChannelKept base nchan c (u.processSample base nchan f c) (s.processFrame base nchan f) := by
  obtain ⟨before, after, hlist⟩ := List.append_of_mem hc
  have hnodup := processedChannels_nodup nchan
  rw [hlist, List.nodup_middle, List.nodup_cons, List.mem_append, not_or] at hnodup
  obtain ⟨⟨hbefore, hafter⟩, -⟩ := hnodup
  refine ⟨before.foldl (fun t c' => t.processSample base nchan f c') s, .foldl_processSample hc ?_ hbefore, ?_⟩
  · simp [hlist]
  · rw [State.processFrame, hlist, List.foldl_append, List.foldl_cons]
    refine .foldl_processSample hc ?_ hafter
    simp [hlist]

/-- What a frame does to a processed channel: its sample goes through the chain, its words of other
frames stay. -/
structure State.FrameDone (base nchan f : Nat) (c : Channel) (s t : State) : Prop where
  coefs : t.coefsOf c = s.coefsOf c
  hists : t.histsOf c = (s.chainRefOf c (s.memRead (sampleAddr base f c nchan))).2
  sample : ClippedTo (s.chainRefOf c (s.memRead (sampleAddr base f c nchan))).1
    (t.memRead (sampleAddr base f c nchan))
  words : ∀ f', f' ≠ f → t.memRead (sampleAddr base f' c nchan) = s.memRead (sampleAddr base f' c nchan)
  wf : t.mem.wf = true

theorem State.processFrame_done {s : State} (hwf : s.mem.wf = true) (base f : Nat) {nchan : Nat} {c : Channel}
    (hc : c ∈ processedChannels nchan) : State.FrameDone base nchan f c s (s.processFrame base nchan f) := by
  obtain ⟨u, hu, ht⟩ := s.processFrame_channel base f hc
  have hchain : u.chainRefOf c (u.memRead (sampleAddr base f c nchan)) =
      s.chainRefOf c (s.memRead (sampleAddr base f c nchan)) := by
    rw [State.chainRefOf, hu.coefs, hu.hists, hu.words, State.chainRefOf]
  refine ⟨?_, ?_, ?_, fun f' hf' => ?_, ?_⟩
  · rw [ht.coefs, u.coefsOf_processSample, hu.coefs]
  · rw [ht.hists, u.histsOf_processSample, hchain]
  · rw [ht.words, ← hchain]
    exact State.memRead_processSample_same (hu.wf hwf) base nchan f c
  · have hne : sampleAddr base f' c nchan ≠ sampleAddr base f c nchan := fun h => hf' (sampleAddr_inj hc hc h).1
    rw [ht.words, u.memRead_processSample_other hne, hu.words]
  · exact ht.wf (State.wf_processSample (hu.wf hwf) base nchan f c)

/-! ### The stream of one channel -/

/-- The words of a frame already processed are not touched again (R45). -/
theorem State.memRead_processFrames_earlier {s : State} (hwf : s.mem.wf = true) (base : Nat) {nchan count f f' : Nat}
    {c : Channel} (hc : c ∈ processedChannels nchan) (hf : f' < f) :
    (State.processFrames base nchan count f s).memRead (sampleAddr base f' c nchan) =
      s.memRead (sampleAddr base f' c nchan) := by
  induction count generalizing f s with
  | zero => rfl
  | succ n ih =>
    have hframe := State.processFrame_done hwf base f hc
    exact (ih hframe.wf (by omega)).trans (hframe.words f' (by omega))

/-- The samples of channel `c` in `count` frames from frame `f` on (R41). -/
def State.inputsFrom (s : State) (base nchan : Nat) (c : Channel) (f count : Nat) : List F32 :=
  (List.range' f count).map fun f' => s.memRead (sampleAddr base f' c nchan)

theorem State.inputsOf_eq_inputsFrom (s : State) (base n nchan : Nat) (c : Channel) :
    s.inputsOf base n nchan c = s.inputsFrom base nchan c 0 n := by
  rw [State.inputsOf, List.range_eq_range', State.inputsFrom]

theorem State.FrameDone.inputsFrom {base nchan f : Nat} {c : Channel} {s t : State}
    (h : State.FrameDone base nchan f c s t) (count : Nat) :
    t.inputsFrom base nchan c (f + 1) count = s.inputsFrom base nchan c (f + 1) count := by
  refine List.map_congr_left fun f' hf' => h.words f' ?_
  have hle := (List.mem_range'_1.1 hf').1
  omega

theorem length_streamRef (ks : List Coef) (hs : List Hist) (xs : List F32) :
    (streamRef ks hs xs).1.length = xs.length := by
  induction xs generalizing hs with
  | nil => rfl
  | cons x xs ih => exact congrArg (· + 1) (ih _)

/-- The stream of channel `c` in `count` frames from frame `f` on (R125). -/
def State.streamFrom (s : State) (base nchan : Nat) (c : Channel) (f count : Nat) : List F32 × List Hist :=
  streamRef (s.coefsOf c) (s.histsOf c) (s.inputsFrom base nchan c f count)

/-- A frame takes the first sample off the stream and leaves the stream of the rest. -/
theorem State.FrameDone.streamFrom_succ {base nchan f : Nat} {c : Channel} {s t : State}
    (h : State.FrameDone base nchan f c s t) (count : Nat) :
    s.streamFrom base nchan c f (count + 1) =
      ((s.chainRefOf c (s.memRead (sampleAddr base f c nchan))).1 :: (t.streamFrom base nchan c (f + 1) count).1,
        (t.streamFrom base nchan c (f + 1) count).2) := by
  rw [State.streamFrom, State.streamFrom, h.coefs, h.hists, h.inputsFrom]
  rfl

/-- The sample loop sends each processed channel through its stream: by induction on the frames, one frame at a time. -/
theorem State.processFrames_stream {base nchan count f : Nat} {c : Channel} {s : State} (hwf : s.mem.wf = true)
    (hc : c ∈ processedChannels nchan) :
    (State.processFrames base nchan count f s).histsOf c = (s.streamFrom base nchan c f count).2 ∧
    ∀ (i : Nat) (y : F32), (s.streamFrom base nchan c f count).1[i]? = some y →
      ClippedTo y ((State.processFrames base nchan count f s).memRead (sampleAddr base (f + i) c nchan)) := by
  induction count generalizing f s with
  | zero => exact ⟨rfl, nofun⟩
  | succ n ih =>
    have hframe := State.processFrame_done hwf base f hc
    obtain ⟨hhists, houts⟩ := ih (f := f + 1) hframe.wf
    rw [hframe.streamFrom_succ]
    refine ⟨hhists, fun i y hy => ?_⟩
    cases i with
    | zero =>
      obtain rfl := Option.some.inj hy
      have hkept := State.memRead_processFrames_earlier hframe.wf base (count := n) hc (Nat.lt_add_one f)
      have hsample := hframe.sample
      rwa [← hkept] at hsample
    | succ i =>
      rw [Nat.add_comm i, ← Nat.add_assoc]
      exact houts i y hy

/-- Settles O36: the sample loop from frame 0, behind the response. -/
theorem processFiltersEachChannelStream : Obligations.ProcessFiltersEachChannelStream := by
  intro base nframes nchan s hs hwf hbuf
  refine ⟨_, (exec_process_next_iff hs).2 ⟨hbuf, rfl⟩, fun c hc => ?_⟩
  obtain ⟨hhists, houts⟩ := State.processFrames_stream (base := base.toNat) (count := nframes.toNat) (f := 0) hwf hc
  dsimp only
  rw [State.inputsOf_eq_inputsFrom]
  refine ⟨(State.histsOf_eq_iff.2 fun b => State.histAt_respond _ _ b c).trans hhists, ?_, fun f y hy => ?_⟩
  · rw [length_streamRef, State.inputsFrom, List.length_map, List.length_range']
  · rw [State.memRead_congr (State.respond_mem _ _)]
    have hout := houts f y hy
    rwa [Nat.zero_add] at hout

/-- Settles O37: a sample word holds a clipped output of its channel's stream. -/
theorem processOutputsStayInRange : Obligations.ProcessOutputsStayInRange := by
  rintro base nframes nchan s t hs hwf hexec a ⟨f, hf, c, hc, rfl⟩
  obtain ⟨hbuf, -⟩ := (exec_process_next_iff hs).1 hexec
  obtain ⟨t', hexec', hstream⟩ := processFiltersEachChannelStream base nframes nchan s hs hwf hbuf
  obtain rfl := Host.Outcome.next.inj (hexec.symm.trans hexec')
  obtain ⟨-, hlength, houts⟩ := hstream c hc
  have hout := List.getElem?_eq_getElem (hlength ▸ hf)
  exact ClippedTo.inRange (houts f _ hout)

end Sys2Proof.Machine
end

section
/-! SUPPORT. What one step does with the ports (60_exceptions.md R148, R153): it performs the pending message of the move it
makes, and it makes none when nothing is left on either port. -/

namespace Sys2Proof.Machine

/-! ### A placed message -/

@[simp] theorem State.port_placeMessage_same (s : State) (p : PortId) (m : Message) :
    (s.placeMessage p m).port p = { s.port p with state := .idle, pending := some m, undelivered := none } := by
  cases p <;> rfl

@[simp] theorem State.placeMessage_schedule (s : State) (p : PortId) (m : Message) :
    (s.placeMessage p m).schedule = .perform p :: s.schedule := by
  rw [State.placeMessage]

/-- A port's message can be performed exactly when one is pending (R148). -/
theorem State.enabled_perform_iff (s : State) (p : PortId) :
    s.enabled (.perform p) = true ↔ ∃ m, (s.port p).pending = some m :=
  Option.isSome_iff_exists

/-- Settles O42: the message is pending, so performing it, the head of the schedule, can happen and is the move made. -/
theorem placedMessageIsPerformedNext : Obligations.PlacedMessageIsPerformedNext := by
  intro s p m
  have hpending : ((s.placeMessage p m).port p).pending = some m := by rw [State.port_placeMessage_same]
  have henabled := (State.enabled_perform_iff _ p).2 ⟨m, hpending⟩
  exact ⟨State.chooseMove_of_scheduled (s.placeMessage_schedule p m) henabled, hpending⟩

/-! ### A performed message -/

/-- A step that makes a move has that move's effect, on the state whose choice is used up (R148). -/
theorem step_of_chooseMove {s : State} {mv : Move} (hmove : s.chooseMove = some mv) : step s = doMove mv s.tick := by
  rw [step, hmove]

theorem doMove_perform {s : State} {p : PortId} {m : Message} (hpending : (s.port p).pending = some m) :
    doMove (.perform p) s = performMessage p m s := by
  rw [doMove, hpending]

theorem performMessage_of_decode {m : Message} {i : Instr} (hdecode : decode m = .ok i) (p : PortId) (s : State) :
    performMessage p m s = exec i (s.accept p m) := by
  rw [performMessage, hdecode]

/-- Settles O41: the move performs the pending message, and a message that decodes runs its command. -/
theorem stepRunsTheDecodedCommand : Obligations.StepRunsTheDecodedCommand := by
  intro s p m i hmove hpending hdecode
  have htick : (s.tick.port p).pending = some m := by rw [State.tick_port, hpending]
  calc step s = doMove (.perform p) s.tick := step_of_chooseMove hmove
    _ = performMessage p m s.tick := doMove_perform htick
    _ = exec i (s.tick.accept p m) := performMessage_of_decode hdecode p s.tick

/-! ### The end of a run -/

theorem Port.done_iff (q : Port) :
    q.done = true ↔ q.toSend = [] ∧ q.pending = none ∧ q.undelivered = none := by
  simp [Port.done, and_assoc]

theorem State.ended_iff (s : State) : s.ended = true ↔ ∀ p, (s.port p).done = true := by
  refine Bool.and_eq_true_iff.trans ⟨fun ⟨hctrl, haudio⟩ p => ?_, fun h => ⟨h .ctrl, h .audio⟩⟩
  cases p with
  | ctrl => exact hctrl
  | audio => exact haudio

/-- Each move needs something left on its port (R148), so an ended machine can make none. -/
theorem State.enabled_of_ended {s : State} (h : s.ended = true) (mv : Move) : s.enabled mv = false := by
  have hdone (p : PortId) := (Port.done_iff _).1 (s.ended_iff.1 h p)
  cases mv with
  | send p =>
    obtain ⟨hsend, -, -⟩ := hdone p
    simp [State.enabled, hsend]
  | perform p =>
    obtain ⟨-, hpending, -⟩ := hdone p
    simp [State.enabled, hpending]
  | take p =>
    obtain ⟨-, -, hundelivered⟩ := hdone p
    simp [State.enabled, hundelivered]

/-- A step with no possible move waits (R153). -/
theorem step_of_no_enabled {s : State} (h : ∀ mv, s.enabled mv = false) : step s = .next s := by
  cases hmove : s.chooseMove with
  | none => rw [step, hmove]
  | some mv => exact absurd (State.chooseMove_enabled hmove) (by simp [h mv])

/-- Settles O52: an ended machine has no possible move. -/
theorem endedMachineHoldsItsState : Obligations.EndedMachineHoldsItsState :=
  fun _ h => step_of_no_enabled (State.enabled_of_ended h)

end Sys2Proof.Machine
end

section
/-! SUPPORT. Every run ends or faults (70_reset_and_hazards.md R169, R171): `State.left` falls by one in every step that makes
a move, and is zero exactly when nothing is left to do. -/

namespace Sys2Proof.Machine

/-! ### The moves left -/

theorem Port.left_eq_zero_iff (q : Port) : q.left = 0 ↔ q.done = true := by
  simp [Port.left, Port.done_iff, and_assoc]

/-- A run has ended exactly when no move is left. -/
theorem State.left_eq_zero_iff (s : State) : s.left = 0 ↔ s.ended = true := by
  rw [State.left, Nat.add_eq_zero_iff, Port.left_eq_zero_iff, Port.left_eq_zero_iff, State.ended, Bool.and_eq_true]

/-- What replacing one port takes off that port's count, it takes off the state's. -/
theorem State.left_succ_of_port {s t : State} {p : PortId} (hport : (t.port p).left + 1 = (s.port p).left)
    (hothers : ∀ p', p' ≠ p → t.port p' = s.port p') : t.left + 1 = s.left := by
  cases p with
  | ctrl =>
    have haudio : t.audio = s.audio := hothers .audio (by decide)
    have hctrl : t.ctrl.left + 1 = s.ctrl.left := hport
    rw [State.left, State.left, haudio]
    omega
  | audio =>
    have hctrl : t.ctrl = s.ctrl := hothers .ctrl (by decide)
    have haudio : t.audio.left + 1 = s.audio.left := hport
    rw [State.left, State.left, hctrl]
    omega

theorem Port.left_send {q : Port} {m : Message} {rest : List Message} (hpending : q.pending = none)
    (hsend : q.toSend = m :: rest) : ({ q with pending := some m, toSend := rest } : Port).left + 1 = q.left := by
  simp only [Port.left, hpending, hsend, List.length_cons, Option.isSome_some, Option.isSome_none, if_true,
    Bool.false_eq_true, if_false]
  omega

theorem Port.left_take {q : Port} {r : Response} (hundelivered : q.undelivered = some r) (rs : List Response) :
    ({ q with undelivered := none, received := rs } : Port).left + 1 = q.left := by
  simp [Port.left, hundelivered]

theorem Port.left_perform {q : Port} {m : Message} (hpending : q.pending = some m) (hundelivered : q.undelivered = none)
    (r : Response) : ({ q with state := .idle, pending := none, undelivered := some r } : Port).left + 1 = q.left := by
  simp [Port.left, hpending, hundelivered]

/-- When no move can happen on orderly ports, nothing is left on them: an idle port with nothing outstanding could be sent
the next message (R57). -/
theorem State.ended_of_no_enabled {s : State} (hs : s.PortsOrderly) (h : ∀ mv, s.enabled mv = false) :
    s.ended = true := by
  refine s.ended_iff.2 fun p => (Port.done_iff _).2 ?_
  have hpending : (s.port p).pending = none := by simpa [State.enabled] using h (.perform p)
  have hundelivered : (s.port p).undelivered = none := by simpa [State.enabled] using h (.take p)
  have hfree : (s.port p).free = true := (Port.free_iff _).2 ⟨(s.portsOrderly_iff.1 hs p).1, hpending, hundelivered⟩
  have hsend : (s.port p).toSend = [] := by simpa [State.enabled, hfree] using h (.send p)
  exact ⟨hsend, hpending, hundelivered⟩

/-- A step from orderly ports makes one of the moves left, and waits when none is left. -/
theorem step_left {s t : State} (hs : s.PortsOrderly) (h : step s = .next t) : t.left = s.left - 1 := by
  have hothers (p : PortId) (q : Port) := (s.tick_setPort_frame p q).1
  obtain ⟨hmove, rfl⟩ | ⟨p, m, rest, -, hfree, hsend, rfl⟩ | ⟨p, r, -, hundelivered, rfl⟩ | ⟨p, m, -, hpending, hperform⟩ :=
    step_cases h
  · have hleft := t.left_eq_zero_iff.2 (State.ended_of_no_enabled hs (State.chooseMove_none hmove))
    rw [hleft]
  · obtain ⟨-, hpending, -⟩ := (Port.free_iff _).1 hfree
    refine Nat.eq_sub_of_add_eq (State.left_succ_of_port (p := p) ?_ (hothers p _))
    rw [State.port_setPort_same]
    exact Port.left_send hpending hsend
  · refine Nat.eq_sub_of_add_eq (State.left_succ_of_port (p := p) ?_ (hothers p _))
    rw [State.port_setPort_same]
    exact Port.left_take hundelivered _
  · obtain ⟨r, hport, hrest⟩ := performMessage_port hperform
    have hundelivered : (s.port p).undelivered = none :=
      (s.portsOrderly_iff.1 hs p).2.resolve_left (by simp [hpending])
    refine Nat.eq_sub_of_add_eq (State.left_succ_of_port (p := p) ?_ fun p' hp => ?_)
    · rw [hport, State.tick_port]
      exact Port.left_perform hpending hundelivered r
    · rw [hrest p' hp, State.tick_port]

/-! ### No refusal -/

/-- Every command has a meaning. -/
theorem exec_ne_refused (i : Instr) (s : State) (r : Refusal) : exec i s ≠ .refused r := by
  intro h
  cases i with
  | setgain b g =>
    simp only [exec, execSetgain] at h
    split at h <;> cases h
  | getgain b =>
    simp only [exec, execGetgain] at h
    split at h <;> cases h
  | process base nframes nchan =>
    obtain ⟨-, hexec⟩ | ⟨-, -, -, hexec⟩ | ⟨-, -, hexec⟩ := execProcess_cases base nframes nchan s <;>
      cases h.symm.trans hexec
  | init | seten | geten | reset => cases h

theorem performMessage_ne_refused (p : PortId) (m : Message) (s : State) (r : Refusal) :
    performMessage p m s ≠ .refused r := by
  unfold performMessage
  split
  · exact exec_ne_refused _ _ r
  · nofun

theorem step_ne_refused (s : State) (r : Refusal) : step s ≠ .refused r := by
  cases hmove : s.chooseMove with
  | none => rw [step, hmove]; nofun
  | some mv =>
    rw [step_of_chooseMove hmove]
    cases mv with
    | send p | take p => nofun
    | perform p =>
      cases hpending : (s.tick.port p).pending with
      | none => rw [doMove, hpending]; nofun
      | some m => rw [doMove_perform hpending]; exact performMessage_ne_refused p m s.tick r

/-! ### Runs -/

theorem run_succ_of_next {M : Host.Core} {s t : M.State} (h : M.step s = .next t) (k : Nat) :
    M.run (k + 1) s = M.run k t := by
  rw [Host.Core.run, h]

theorem run_succ_of_fault {M : Host.Core} {s : M.State} {f : M.Fault} (h : M.step s = .fault f) (k : Nat) :
    M.run (k + 1) s = .fault f := by
  rw [Host.Core.run, h]

/-- Settles O51, by induction on the length of the run: the moves left go down with the steps left, and the ports stay
orderly. -/
theorem everyRunEndsOrFaults : Obligations.EveryRunEndsOrFaults := by
  intro s k
  induction k generalizing s with
  | zero => exact fun _ hk => .inr ⟨s, rfl, s.left_eq_zero_iff.1 (Nat.le_zero.1 hk)⟩
  | succ k ih =>
    intro hs hk
    cases h : step s with
    | next t =>
      have hleft : t.left ≤ k := by rw [step_left hs h]; omega
      rw [run_succ_of_next (M := Sys2Proof.core) h]
      exact ih t (step_portsOrderly h hs) hleft
    | fault f => exact .inl ⟨f, run_succ_of_fault (M := Sys2Proof.core) h k⟩
    | refused r => exact absurd h (step_ne_refused s r)

end Sys2Proof.Machine
end

section
/-! SUPPORT. Power-on reset (70_reset_and_hazards.md R160, R161; 40_biquad_filter.md R81): the values it leaves, read through
the accessors, and that a running machine gets them with its memory spared. -/

namespace Sys2Proof.Machine

/-! ### The state after power-on -/

@[simp] theorem State.gainAt_reset (b : Band) : State.reset.gainAt b = 0#32 := Vector.getElem_replicate _

@[simp] theorem State.coefAt_reset (b : Band) (c : Channel) : State.reset.coefAt b c = Coef.identity := by
  have hstage : State.reset.coef[b.val] = ⟨Coef.identity, Coef.identity⟩ := Vector.getElem_replicate _
  rw [State.coefAt, hstage]
  cases c <;> rfl

@[simp] theorem State.histAt_reset (b : Band) (c : Channel) : State.reset.histAt b c = Hist.zero := by
  have hstage : State.reset.hist[b.val] = ⟨Hist.zero, Hist.zero⟩ := Vector.getElem_replicate _
  rw [State.histAt, hstage]
  cases c <;> rfl

@[simp] theorem State.port_reset (p : PortId) : State.reset.port p = Port.reset := by cases p <;> rfl

/-- Settles O48: every gain is +0.0, every stage holds the identity set, and nothing is outstanding. -/
theorem powerOnStateMeetsTheInvariant : Obligations.PowerOnStateMeetsTheInvariant where
  gains b := by rw [State.gainAt_reset]; decide
  coefs b := (State.coefAt_reset b .ch0).trans (State.coefAt_reset b .ch1).symm
  ident _ := State.coefAt_reset
  rate := nofun
  memory := State.reset_mem_sound
  ports := State.reset.portsOrderly_iff.2 fun p => by rw [State.port_reset]; exact ⟨rfl, .inl rfl⟩

/-- Settles O49: the register files are one value repeated, and each port is `Port.reset`. -/
theorem powerOnValuesAreAsListed : Obligations.PowerOnValuesAreAsListed :=
  ⟨State.gainAt_reset, rfl, rfl, rfl, State.coefAt_reset, State.histAt_reset,
    fun p => by rw [State.port_reset]; exact ⟨rfl, rfl, rfl⟩⟩

/-! ### Reset of a running machine -/

/-- A fold over bands that gives each band it visits the value `v` leaves `v` at every band of the list. -/
theorem read_foldl_band {α : Type} {read : State → Band → α} {f : State → Band → State} {v : α}
    (h : ∀ s b' b, read (f s b') b = if b = b' then v else read s b) (l : List Band) (s : State) (b : Band) :
    read (l.foldl f s) b = if b ∈ l then v else read s b := by
  induction l generalizing s with
  | nil => simp
  | cons b' l ih =>
    rw [List.foldl_cons, ih, h]
    by_cases hl : b ∈ l <;> simp [hl]

theorem State.coefAt_stageConstruct (s : State) (b' b : Band) (c : Channel) :
    (s.stageConstruct b').coefAt b c = if b = b' then Coef.identity else s.coefAt b c := by
  have hcoef : (s.stageConstruct b').coefAt b c = (s.setCoef b' Coef.identity).coefAt b c := rfl
  rw [hcoef]
  split
  · next hb => rw [hb, State.coefAt_setCoef_same]
  · next hb => exact s.coefAt_setCoef_other hb c _

/-- `STAGE_CONSTRUCT` clears the histories as a reset of both stages does (R81). -/
theorem State.histAt_stageConstruct (s : State) (b' b : Band) (c : Channel) :
    (s.stageConstruct b').histAt b c = if b = b' then Hist.zero else s.histAt b c := by
  have hstages : s.stageConstruct b' = ((s.setCoef b' Coef.identity).stageReset b' .ch0).stageReset b' .ch1 := rfl
  have hcoef : (s.setCoef b' Coef.identity).histAt b c = s.histAt b c := rfl
  rw [hstages, State.histAt_stageReset, State.histAt_stageReset, hcoef]
  cases c <;> simp

/-- A fold of `STAGE_CONSTRUCT` changes coefficients and histories and nothing else. -/
theorem State.foldl_stageConstruct_eq (s : State) (l : List Band) :
    l.foldl State.stageConstruct s =
      { s with coef := (l.foldl State.stageConstruct s).coef, hist := (l.foldl State.stageConstruct s).hist } := by
  refine foldl_keeps (fun t => t = { s with coef := t.coef, hist := t.hist }) _ (fun t b ht => ?_) l s rfl
  rw [ht]; rfl

theorem State.coefAt_powerOnReset (s : State) (b : Band) (c : Channel) : s.powerOnReset.coefAt b c = Coef.identity :=
  (read_foldl_band (read := fun t b => t.coefAt b c) (fun t b' b => t.coefAt_stageConstruct b' b c) allBands _ b).trans
    (if_pos (mem_allBands b))

theorem State.histAt_powerOnReset (s : State) (b : Band) (c : Channel) : s.powerOnReset.histAt b c = Hist.zero :=
  (read_foldl_band (read := fun t b => t.histAt b c) (fun t b' b => t.histAt_stageConstruct b' b c) allBands _ b).trans
    (if_pos (mem_allBands b))

/-- Power-on reset of a running machine is `State.reset` but for the ports, the memory and the model's own fields. -/
theorem State.powerOnReset_eq (s : State) : s.powerOnReset =
    { State.reset with
      ctrl := s.ctrl.powerOn, audio := s.audio.powerOn, mem := s.mem, lent := s.lent, serving := s.serving,
      draws := s.draws, schedule := s.schedule, picks := s.picks } := by
  have hcoef : s.powerOnReset.coef = State.reset.coef :=
    State.coef_ext fun b c => (s.coefAt_powerOnReset b c).trans (State.coefAt_reset b c).symm
  have hhist : s.powerOnReset.hist = State.reset.hist :=
    State.hist_ext fun b c => (s.histAt_powerOnReset b c).trans (State.histAt_reset b c).symm
  have hfold : s.powerOnReset =
      { s.zeroGains with
        en := Config.enableReset, initd := false, fs := none, ctrl := s.ctrl.powerOn, audio := s.audio.powerOn,
        coef := s.powerOnReset.coef, hist := s.powerOnReset.hist } := State.foldl_stageConstruct_eq _ allBands
  rw [hcoef, hhist, State.zeroGains_eq_replicate] at hfold
  exact hfold

theorem State.port_powerOnReset (s : State) (p : PortId) : s.powerOnReset.port p = (s.port p).powerOn := by
  rw [State.powerOnReset_eq]
  cases p <;> rfl

/-- Settles O50: the registers are those of `State.reset`, and each port is its own after power-on. -/
theorem powerOnResetRestoresEveryRegister : Obligations.PowerOnResetRestoresEveryRegister := by
  refine fun s => ⟨?_, ?_, fun p => ?_⟩
  · rw [State.powerOnReset_eq]; exact ⟨rfl, rfl, rfl, rfl, rfl, rfl⟩
  · rw [State.powerOnReset_eq]
  · rw [State.port_powerOnReset]; exact ⟨rfl, rfl, rfl⟩

end Sys2Proof.Machine
end
